-- ==== Sys2Proof/Word.lean ====
section
/-! DEFINITION. The word types: every memory cell and register is an unsigned byte (00_scope.md R8), the
program counter is stored in 9 bits (10_state.md R35), a checked register index is 0 to 7 (10_state.md R32). -/

namespace Sys2Proof

/-- An unsigned 8-bit value: a memory cell, a register, an opcode or operand byte (R8). -/
abbrev Byte := BitVec 8

/-- The program counter's word: 0 to 256 stored in 9 bits (R35). -/
abbrev PcWord := BitVec 9

/-- A checked register index, 0 to 7 (R10, R15). -/
abbrev RegIndex := Fin 8

end Sys2Proof
end

