-- ==== Sys2Proof/Config.lean ====
section
/-! DEFINITION. The implementation parameters of 00_scope.md R7, and the one parameter the spec leaves open:
the ALU tags besides ADD (42_arithmetic.md R150, 92_eei_decisions.md D19). -/

namespace Sys2Proof

/-- `MEM_SIZE`: the number of memory cells (R7). -/
@[simp] abbrev Config.memSize : Nat := 256

/-- `NREGS`: the number of general registers (R7). -/
@[simp] abbrev Config.regCount : Nat := 8

/-- `SP_INDEX`: the register that PUSH, POP, CALL and RET use as the stack pointer (R7, R33). -/
@[simp] abbrev Config.spIndex : RegIndex := 7

/-- `SP_RESET`: the stack pointer after reset (R7, R34; 90_conflicts.md C2). -/
@[simp] abbrev Config.spReset : Byte := 0xF4#8

/-- The longest program `load` accepts (R7, R251; 92_eei_decisions.md D10). -/
@[simp] abbrev Config.maxProgram : Nat := 256

/-- One less than the number of ALU tags besides ADD. R150 makes the tag type a parameter: any finite type with
ADD and at least one other value. DESIGN CHOICE (log entry 7): no body, so nothing can depend on how many there
are. Safe. -/
opaque Config.otherAluTags : Nat

end Sys2Proof
end

