-- ==== Sys2Proof/Machine/State.lean ====
section
/-! DEFINITION. The engine's whole state (10_state.md R30), as plain data, the reasons a step can stop, and the state
after reset (R43). -/

namespace Sys2Proof.Machine

/-- ALU operation tags (42_arithmetic.md R150): ADD and at least one other tag, how many being a parameter. -/
inductive AluOp where
  /-- The one operation the ALU implements. -/
  | add
  /-- A tag the ALU does not implement. -/
  | other (tag : Fin (Config.otherAluTags + 1))
  deriving DecidableEq, Repr

/-- The sub-kinds of `OutOfBounds` (60_exceptions.md R221). -/
inductive BoundsKind where
  | fetchAddress | operandAddress | registerIndex | spDecrement | spIncrement | returnAddress
  deriving DecidableEq, Repr

/-- What a run fault reports: its kind with its detail (R220 to R223). The recorded value is an exact natural number
(00_scope.md R13). -/
inductive FaultCause where
  /-- Kind 1: the opcode byte matches no row of the table (R222). -/
  | unknownOpcode (op : Byte)
  /-- Kind 2: something out of range, with the value R221 records. -/
  | outOfBounds (sub : BoundsKind) (value : Nat)
  /-- Kind 3: the ALU was given a tag other than ADD (R223). -/
  | unsupportedOperation (tag : AluOp)
  deriving DecidableEq, Repr

/-- The contents of a written `fault` latch (10_state.md R40): `fault.kind` and `fault.detail` as the cause, and
`fault.pc`. -/
structure FaultRecord where
  cause : FaultCause
  pc : PcWord
  deriving DecidableEq, Repr

/-- The flags E (`equal`), L (`less_than`) and G (`greater_than`) (10_state.md R38). -/
structure Flags where
  e : Bool
  l : Bool
  g : Bool
  deriving DecidableEq, Repr

/-- The next-`pc` selections of `program_counter_unit` (40_engine.md R114). -/
inductive PcSelect where
  /-- `SEQ(n)`: advance by `n` (2 or 3). -/
  | seq (n : Nat)
  /-- `TARGET(t)`: a register value or a stack byte. -/
  | target (t : Byte)
  /-- `ZERO`: HLT only. -/
  | zero
  /-- `HOLD`: a faulting step only. -/
  | hold
  deriving DecidableEq, Repr

/-- The memory array as its listed cells: addresses strictly rising, none equal to 0, which is what an unlisted
address reads as (10_state.md R31 resets every cell to 0). `Memory.Wf` says so. -/
abbrev Memory := List Host.Cell

/-- `x[0..7]`. -/
abbrev RegFile := Vector Byte 8

/-- All state of R30, and one field of the model's own, `out`. -/
structure State where
  /-- `memory[0..255]` (R31). -/
  memory : Memory
  /-- `x[0..7]`; `x[7]` is `SP` (R32, R33). -/
  regs : RegFile
  /-- The address of the next instruction to fetch, 0 to 256 (R35). -/
  pc : PcWord
  /-- E, L, G (R38). -/
  flags : Flags
  /-- The run state bit (R39). -/
  running : Bool
  /-- The `fault` latch (R40); `none` is kind 0, with pc 0 and detail 0 (log entry 3). -/
  fault : Option FaultRecord
  /-- The host-protocol bit (R42). -/
  loaded : Bool
  /-- The model's own: every `out(v)` event so far, oldest first (40_engine.md R117; log entry 1). -/
  out : List Byte
  deriving DecidableEq, Repr

/-- Why `step` makes no step. 40_engine.md R118 defines a step only when `running = 1`; no instruction's meaning ends
in one of these (log entry 4). -/
inductive Fault where
  /-- Raised by `step` on a Halted engine: it waits for the host's `start` (R118, R238). Safe: nothing happens. -/
  | halted
  /-- Raised by `step` on a Faulted engine: only `reset` leaves it (R118, R227). Safe: nothing happens. -/
  | faulted
  deriving DecidableEq, Repr

/-- Why an instruction has no meaning in the model. -/
inductive Refusal where
  /-- Raised by an arm of `exec` for an instruction not modelled yet; no arm raises it. Safe: the run stops. -/
  | notModelled (mnemonic : String)
  deriving DecidableEq, Repr

/-- What a step answers. -/
abbrev StepResult := Host.Outcome State Fault Refusal

/-- The machine right after reset (R43). `out` is empty: no event has been sent yet (log entry 1). -/
def State.reset : State where
  memory := []
  regs := #v[0, 0, 0, 0, 0, 0, 0, Config.spReset]
  pc := 0
  flags := ⟨false, false, false⟩
  running := false
  fault := none
  loaded := false
  out := []

end Sys2Proof.Machine
end

