-- ==== Sys2Proof/Machine/Ops.lean ====
section
/-! DEFINITION. The shared operations: memory, `register_file`, `program_counter_unit`, `stack_pointer_unit`, the output
port, and taking a fault. -/

namespace Sys2Proof.Machine

/-- The canonical form of a memory: addresses strictly rising and inside the address space, no listed 0. -/
abbrev Memory.Wf (m : Memory) : Prop :=
  m.Pairwise (fun c d => c.1 < d.1) ∧ ∀ c ∈ m, c.1 < Config.memSize ∧ c.2 ≠ 0#8

/-- The byte at an address; an unlisted cell is 0 (10_state.md R31). -/
def Memory.read (m : Memory) (a : Nat) : Byte :=
  match m with
  | [] => 0#8
  | (b, v) :: rest => if b = a then v else Memory.read rest a

/-- Sets one cell and keeps the canonical form: writing 0 unlists the cell. -/
def Memory.write (m : Memory) (a : Nat) (v : Byte) : Memory :=
  match m with
  | [] => if v = 0#8 then [] else [(a, v)]
  | (b, w) :: rest =>
    if a < b then (if v = 0#8 then (b, w) :: rest else (a, v) :: (b, w) :: rest)
    else if a = b then (if v = 0#8 then rest else (a, v) :: rest)
    else (b, w) :: Memory.write rest a v

/-- Sets consecutive cells from `a` on, in increasing address order (70_reset_and_hazards.md R251). -/
def Memory.writeBytes (m : Memory) (a : Nat) (bytes : List Byte) : Memory :=
  match bytes with
  | [] => m
  | v :: rest => Memory.writeBytes (Memory.write m a v) (a + 1) rest

/-- `memory[a]`. -/
def State.cell (s : State) (a : Nat) : Byte := s.memory.read a

/-- `MemRead(addr, 1)` (00_scope.md R11): raises `OutOfBounds` with the sub-kind of the access when the address does not
exist; addresses never wrap (20_memory.md R65). -/
def State.memRead (s : State) (sub : BoundsKind) (a : Nat) : Except FaultCause Byte :=
  if a < Config.memSize then .ok (s.cell a) else .error (.outOfBounds sub a)

/-- `MemWrite(addr, 1, v)` (R11), which the rules only call with an address in 0..255. -/
def State.memWrite (s : State) (a v : Byte) : State := { s with memory := s.memory.write a.toNat v }

/-- `register_file.read(i)` (40_engine.md R112). -/
def State.reg (s : State) (r : RegIndex) : Byte := s.regs[r]

/-- `register_file.write(i, v)` (R112). -/
def State.setReg (s : State) (r : RegIndex) (v : Byte) : State := { s with regs := s.regs.set r.val v r.isLt }

/-- `SP`, which is `x[7]` (R10, R33). -/
def State.sp (s : State) : Byte := s.reg Config.spIndex

/-- Writes `SP`. -/
def State.setSp (s : State) (v : Byte) : State := s.setReg Config.spIndex v

/-- Keeps the low 8 bits of an exact result: reduction modulo 256 (R13, 42_arithmetic.md R154). -/
def narrow (n : Nat) : Byte := BitVec.ofNat 8 n

/-- The next `pc` of a selection (40_engine.md R114). `SEQ` is stored without wrapping for every `pc` from which the
instruction's operands can be fetched (10_state.md R35; log entry 8). -/
def PcSelect.next (sel : PcSelect) (pc : PcWord) : PcWord :=
  match sel with
  | .seq n => pc + BitVec.ofNat 9 n
  | .target t => t.setWidth 9
  | .zero => 0#9
  | .hold => pc

/-- Applies the one next-`pc` selection of a step (R114). -/
def State.selectPc (s : State) (sel : PcSelect) : State := { s with pc := sel.next s.pc }

/-- Writes the three flags; only CMP does (10_state.md R38). -/
def State.setFlags (s : State) (f : Flags) : State := { s with flags := f }

/-- `Emit(v)`: one event on the output port, after those already sent (00_scope.md R12, 40_engine.md R117). -/
def State.emit (s : State) (v : Byte) : State := { s with out := s.out ++ [v] }

/-- `Dec(sp)` (43_stack.md R170). -/
def spDec (sp : Byte) : Except FaultCause Byte :=
  if sp = 0#8 then .error (.outOfBounds .spDecrement 0) else .ok (sp - 1#8)

/-- `Inc(sp)` (43_stack.md R171). -/
def spInc (sp : Byte) : Except FaultCause Byte :=
  if sp = 255#8 then .error (.outOfBounds .spIncrement 255) else .ok (sp + 1#8)

/-- Taking a fault (60_exceptions.md R226): `running` is cleared, the latch records kind, detail and the `pc` of the
faulting instruction, and nothing else changes. There is no return from a fault (R227): `State.hostReset` alone leaves
the Faulted state. -/
def State.takeFault (s : State) (c : FaultCause) : State :=
  { s with running := false, fault := some ⟨c, s.pc⟩ }.selectPc .hold

/-- Commits a handler (40_engine.md R123): either all its writes take effect, or it raised and the fault is taken from
the state before it, so that it wrote nothing (00_scope.md R12, R13). -/
def State.commit (s : State) (handler : Except FaultCause State) : StepResult :=
  match handler with
  | .ok t => .next t
  | .error c => .next (s.takeFault c)

end Sys2Proof.Machine
end

