-- ==== Sys2Proof/Machine/Alu.lean ====
section
/-! DEFINITION. `alu_simple` (40_engine.md R113, 42_arithmetic.md R151): ADD in place on the register file; every other
tag is reported and writes no register. -/

namespace Sys2Proof.Machine

/-- `alu_simple.exec(op, a, b)` (R151). It sees the register file alone, so it can write no flag, memory cell or pc. -/
def aluExec (op : AluOp) (a b : RegIndex) (x : RegFile) : Except FaultCause RegFile :=
  match op with
  | .add => .ok (x.set a.val (narrow (x[a].toNat + x[b].toNat)) a.isLt)
  | .other tag => .error (.unsupportedOperation (.other tag))

/-- The ALU driven on its own interface (R113, R156): a supported operation changes the register file, any other is a
fault that ends the run (R223). DESIGN CHOICE (log entry 21): the spec does not say what such a use does on an engine that
is not Running; `running` and the latch are not checked here, so the register is written in any state, and an
unsupported tag makes a Halted engine Faulted and overwrites a latch already written. -/
def aluTransaction (op : AluOp) (a b : RegIndex) (s : State) : StepResult :=
  s.commit do
    let x ← aluExec op a b s.regs
    .ok { s with regs := x }

end Sys2Proof.Machine
end

