-- ==== Sys2Proof/Machine/Flags.lean ====
section
/-! DEFINITION. The flag computation: CMP's unsigned comparison, the only one there is (10_state.md R38,
42_arithmetic.md R155; 92_eei_decisions.md D21 for the direction of L and G). -/

namespace Sys2Proof.Machine

/-- E, L and G of comparing `va` with `vb` as unsigned integers (R155). -/
def compareFlags (va vb : Byte) : Flags where
  e := decide (va.toNat = vb.toNat)
  l := decide (va.toNat < vb.toNat)
  g := decide (vb.toNat < va.toNat)

end Sys2Proof.Machine
end

