-- ==== Sys2Proof/Machine/Operands.lean ====
section
/-! DEFINITION. The operand forms (30_encoding.md R82 to R84): a register byte, which is checked and never masked, and
LDI's immediate, which is the byte as it is. No other form exists. -/

namespace Sys2Proof.Machine

/-- `RegIdx(b)` (00_scope.md R15). -/
def regIdx (b : Byte) : Except FaultCause RegIndex :=
  if h : b.toNat < 8 then .ok ⟨b.toNat, h⟩ else .error (.outOfBounds .registerIndex b.toNat)

/-- The two register operands of format RR, `a` checked before `b` (40_engine.md R122). -/
def regPair (a b : Byte) : Except FaultCause (RegIndex × RegIndex) := do
  let ra ← regIdx a
  let rb ← regIdx b
  .ok (ra, rb)

/-- LDI's immediate: `zext_8(imm) = imm` (30_encoding.md R83). -/
def immediate (imm : Byte) : Byte := imm

end Sys2Proof.Machine
end

