-- ==== Sys2Proof/Machine/Arithmetic.lean ====
section
/-! DEFINITION. ADD, MUL and CMP (42_arithmetic.md R152, R153, R155). -/

namespace Sys2Proof.Machine

/-- ADD (R152): delegates to the ALU. -/
def execAdd (a b : Byte) (s : State) : StepResult :=
  s.commit do
    let (ra, rb) ← regPair a b
    let x ← aluExec .add ra rb s.regs
    .ok ({ s with regs := x }.selectPc (.seq 3))

/-- MUL (R153): its own multiply datapath, not the ALU. -/
def execMul (a b : Byte) (s : State) : StepResult :=
  s.commit do
    let (ra, rb) ← regPair a b
    .ok ((s.setReg ra (narrow ((s.reg ra).toNat * (s.reg rb).toNat))).selectPc (.seq 3))

/-- CMP (R155). -/
def execCmp (a b : Byte) (s : State) : StepResult :=
  s.commit do
    let (ra, rb) ← regPair a b
    .ok ((s.setFlags (compareFlags (s.reg ra) (s.reg rb))).selectPc (.seq 3))

end Sys2Proof.Machine
end

