-- ==== Sys2Proof/Machine/Control.lean ====
section
/-! DEFINITION. HLT (40_engine.md R124) and the control transfers CALL, RET, JMP, JEQ and JNE (44_control.md R190 to
R195). -/

namespace Sys2Proof.Machine

/-- HLT (R124). -/
def execHlt (s : State) : StepResult :=
  s.commit (.ok ({ s with running := false }.selectPc .zero))

/-- CALL (R190): SP_DECREMENT is checked before RETURN_ADDRESS; `x[r]` is read after the write to `x[7]`, so CALL R7
jumps to the decremented stack pointer (92_eei_decisions.md D17). -/
def execCall (r : Byte) (s : State) : StepResult :=
  s.commit do
    let rs ← regIdx r
    let ra := s.pc.toNat + 2
    let sp ← spDec s.sp
    if Config.memSize ≤ ra then
      .error (.outOfBounds .returnAddress ra)
    else
      let s1 := s.setSp sp
      .ok ((s1.memWrite sp (narrow ra)).selectPc (.target (s1.reg rs)))

/-- RET (R191). -/
def execRet (s : State) : StepResult :=
  s.commit do
    let t := s.cell s.sp.toNat
    let sp ← spInc s.sp
    .ok ((s.setSp sp).selectPc (.target t))

/-- JMP (R193). -/
def execJmp (r : Byte) (s : State) : StepResult :=
  s.commit do
    let rs ← regIdx r
    .ok (s.selectPc (.target (s.reg rs)))

/-- The selection of a conditional jump: its target when taken, else past its two bytes (R194, R195). -/
def branchSelect (taken : Bool) (target : Byte) : PcSelect := if taken then .target target else .seq 2

/-- JEQ (R194): the register byte is checked whether or not the branch is taken. -/
def execJeq (r : Byte) (s : State) : StepResult :=
  s.commit do
    let rs ← regIdx r
    .ok (s.selectPc (branchSelect s.flags.e (s.reg rs)))

/-- JNE (R195): reads E alone. -/
def execJne (r : Byte) (s : State) : StepResult :=
  s.commit do
    let rs ← regIdx r
    .ok (s.selectPc (branchSelect (!s.flags.e) (s.reg rs)))

end Sys2Proof.Machine
end

