-- ==== Sys2Proof/Machine/DataMovement.lean ====
section
/-! DEFINITION. LDI and PRN (41_data_movement.md R140, R141). -/

namespace Sys2Proof.Machine

/-- LDI (R140). -/
def execLdi (r imm : Byte) (s : State) : StepResult :=
  s.commit do
    let rd ← regIdx r
    .ok ((s.setReg rd (immediate imm)).selectPc (.seq 3))

/-- PRN (R141): one `out` event. -/
def execPrn (r : Byte) (s : State) : StepResult :=
  s.commit do
    let rs ← regIdx r
    .ok ((s.emit (s.reg rs)).selectPc (.seq 2))

end Sys2Proof.Machine
end

