-- ==== Sys2Proof/Machine/Stack.lean ====
section
/-! DEFINITION. PUSH and POP (43_stack.md R172, R173). -/

namespace Sys2Proof.Machine

/-- PUSH (R172): `x[r]` is read after the write to `x[7]`, so PUSH R7 stores the decremented stack pointer
(92_eei_decisions.md D17). -/
def execPush (r : Byte) (s : State) : StepResult :=
  s.commit do
    let rs ← regIdx r
    let sp ← spDec s.sp
    let s1 := s.setSp sp
    .ok ((s1.memWrite sp (s1.reg rs)).selectPc (.seq 2))

/-- POP (R173): for R7 the popped value itself is incremented; for any other register the stack pointer is. Every
`raise` comes before the writes. -/
def execPop (r : Byte) (s : State) : StepResult :=
  s.commit do
    let rd ← regIdx r
    let v := s.cell s.sp.toNat
    if rd = Config.spIndex then
      let sp ← spInc v
      .ok ((s.setSp sp).selectPc (.seq 2))
    else
      let sp ← spInc s.sp
      .ok (((s.setReg rd v).setSp sp).selectPc (.seq 2))

end Sys2Proof.Machine
end

