-- ==== Sys2Proof/Syntax.lean ====
section
/-! DEFINITION. The instructions: one constructor per row of spec/opcode_table.json (30_encoding.md R86), in the
table's order. An operand is the whole byte the encoding gives it (R81); whether a register byte names a register is
checked by `Instr.WellFormed` and, when the instruction runs, by `RegIdx` (00_scope.md R15; log entry 11). -/

namespace Sys2Proof

/-- The thirteen instructions of R86, each with its operand bytes in encoding order. -/
inductive Instr where
  /-- HLT, format N (R124). -/
  | hlt
  /-- LDI r, imm, format RI (R140). -/
  | ldi (r imm : Byte)
  /-- PRN r, format R (R141). -/
  | prn (r : Byte)
  /-- MUL a, b, format RR (R153). -/
  | mul (a b : Byte)
  /-- PUSH r, format R (R172). -/
  | push (r : Byte)
  /-- POP r, format R (R173). -/
  | pop (r : Byte)
  /-- CALL r, format R (R190). -/
  | call (r : Byte)
  /-- RET, format N (R191). -/
  | ret
  /-- ADD a, b, format RR (R152). -/
  | add (a b : Byte)
  /-- CMP a, b, format RR (R155). -/
  | cmp (a b : Byte)
  /-- JMP r, format R (R193). -/
  | jmp (r : Byte)
  /-- JNE r, format R (R195). -/
  | jne (r : Byte)
  /-- JEQ r, format R (R194). -/
  | jeq (r : Byte)
  deriving DecidableEq, Repr

end Sys2Proof
end

