-- ==== Sys2Proof/Machine/Dispatch.lean ====
section
/-! DEFINITION. `instruction_dispatcher`'s exhaustive match (40_engine.md R116): one arm per instruction. -/

namespace Sys2Proof.Machine

/-- The handler of each opcode (R123). -/
def exec (i : Instr) (s : State) : Host.Outcome State Fault Refusal :=
  match i with
  | .hlt => Sys2Proof.Machine.execHlt s
  | .ldi r imm => Sys2Proof.Machine.execLdi r imm s
  | .prn r => Sys2Proof.Machine.execPrn r s
  | .mul a b => Sys2Proof.Machine.execMul a b s
  | .push r => Sys2Proof.Machine.execPush r s
  | .pop r => Sys2Proof.Machine.execPop r s
  | .call r => Sys2Proof.Machine.execCall r s
  | .ret => Sys2Proof.Machine.execRet s
  | .add a b => Sys2Proof.Machine.execAdd a b s
  | .cmp a b => Sys2Proof.Machine.execCmp a b s
  | .jmp r => Sys2Proof.Machine.execJmp r s
  | .jne r => Sys2Proof.Machine.execJne r s
  | .jeq r => Sys2Proof.Machine.execJeq r s

end Sys2Proof.Machine
end

