-- ==== Sys2Proof/Decode.lean ====
section
/-! DEFINITION. `instruction_dispatcher`'s decoding (40_engine.md R116, R120): a literal match of the whole opcode
byte (30_encoding.md R85, R86), then the operand bytes of the instruction's format (R81). Total on any bytes; it
rejects by name. The encoder stands after it. -/

namespace Sys2Proof

/-- The instruction tags the dispatcher's `Decode(op)` returns (R116), in the order of R86. -/
inductive Opcode where
  | hlt | ldi | prn | mul | push | pop | call | ret | add | cmp | jmp | jne | jeq
  deriving DecidableEq, Repr

/-- The four formats of R81. -/
inductive Format where
  /-- One byte: the opcode. -/
  | n
  /-- Two bytes: opcode, register. -/
  | r
  /-- Three bytes: opcode, register, immediate. -/
  | ri
  /-- Three bytes: opcode, register A, register B. -/
  | rr
  deriving DecidableEq, Repr

/-- Why bytes do not decode. -/
inductive DecodeError where
  /-- There is no byte to decode. -/
  | noOpcode
  /-- The first byte is one of the 243 undefined opcodes (R89). -/
  | unknownOpcode (op : Byte)
  /-- The bytes end before operand byte `k` (1 or 2) of the instruction. -/
  | missingOperand (k : Nat)
  deriving DecidableEq, Repr

/-- Operand bytes of a format (R81). -/
def Format.operandCount : Format → Nat
  | .n => 0
  | .r => 1
  | .ri => 2
  | .rr => 2

/-- The format column of R86. -/
def Opcode.format : Opcode → Format
  | .hlt => .n
  | .ldi => .ri
  | .prn => .r
  | .mul => .rr
  | .push => .r
  | .pop => .r
  | .call => .r
  | .ret => .n
  | .add => .rr
  | .cmp => .rr
  | .jmp => .r
  | .jne => .r
  | .jeq => .r

/-- `OperandCount(ins)`: the operand-bytes column of R86. -/
def Opcode.operandCount (o : Opcode) : Nat := o.format.operandCount

/-- The length of R87: the operand bytes plus the opcode byte. -/
def Opcode.length (o : Opcode) : Nat := o.operandCount + 1

/-- `Decode(op)` (R85, R116): the thirteen constants of R86, matched literally; `none` for every other byte. -/
def decodeOpcode (op : Byte) : Option Opcode :=
  if op = 0x01#8 then some .hlt
  else if op = 0x82#8 then some .ldi
  else if op = 0x47#8 then some .prn
  else if op = 0xA2#8 then some .mul
  else if op = 0x45#8 then some .push
  else if op = 0x46#8 then some .pop
  else if op = 0x50#8 then some .call
  else if op = 0x11#8 then some .ret
  else if op = 0xA0#8 then some .add
  else if op = 0xA7#8 then some .cmp
  else if op = 0x54#8 then some .jmp
  else if op = 0x56#8 then some .jne
  else if op = 0x55#8 then some .jeq
  else none

/-- The instruction of a tag and its operand bytes `b1` and `b2` (R14); a byte the format lacks is not used. -/
def Opcode.assemble (o : Opcode) (b1 b2 : Byte) : Instr :=
  match o with
  | .hlt => .hlt
  | .ldi => .ldi b1 b2
  | .prn => .prn b1
  | .mul => .mul b1 b2
  | .push => .push b1
  | .pop => .pop b1
  | .call => .call b1
  | .ret => .ret
  | .add => .add b1 b2
  | .cmp => .cmp b1 b2
  | .jmp => .jmp b1
  | .jne => .jne b1
  | .jeq => .jeq b1

/-- Reads the operand bytes a format has, in increasing address order (R80, R121). -/
def takeOperands (f : Format) (bytes : List Byte) : Except DecodeError (Byte × Byte × List Byte) :=
  match f, bytes with
  | .n, rest => .ok (0#8, 0#8, rest)
  | .r, b1 :: rest => .ok (b1, 0#8, rest)
  | .r, [] => .error (.missingOperand 1)
  | .ri, b1 :: b2 :: rest => .ok (b1, b2, rest)
  | .ri, [_] => .error (.missingOperand 2)
  | .ri, [] => .error (.missingOperand 1)
  | .rr, b1 :: b2 :: rest => .ok (b1, b2, rest)
  | .rr, [_] => .error (.missingOperand 2)
  | .rr, [] => .error (.missingOperand 1)

/-- One instruction from the front of a byte list, with the bytes after it. The opcode is matched before any operand
byte is looked at (R87, R120). -/
def decode (bytes : List Byte) : Except DecodeError (Instr × List Byte) :=
  match bytes with
  | [] => .error .noOpcode
  | op :: rest =>
    match decodeOpcode op with
    | none => .error (.unknownOpcode op)
    | some o =>
      match takeOperands o.format rest with
      | .error e => .error e
      | .ok (b1, b2, rest') => .ok (o.assemble b1 b2, rest')

/-- The opcode byte of a tag (R86). -/
def Opcode.byte : Opcode → Byte
  | .hlt => 0b00000001#8
  | .ldi => 0b10000010#8
  | .prn => 0b01000111#8
  | .mul => 0b10100010#8
  | .push => 0b01000101#8
  | .pop => 0b01000110#8
  | .call => 0b01010000#8
  | .ret => 0b00010001#8
  | .add => 0b10100000#8
  | .cmp => 0b10100111#8
  | .jmp => 0b01010100#8
  | .jne => 0b01010110#8
  | .jeq => 0b01010101#8

/-- The tag of an instruction. -/
def Instr.opcode : Instr → Opcode
  | .hlt => .hlt
  | .ldi _ _ => .ldi
  | .prn _ => .prn
  | .mul _ _ => .mul
  | .push _ => .push
  | .pop _ => .pop
  | .call _ => .call
  | .ret => .ret
  | .add _ _ => .add
  | .cmp _ _ => .cmp
  | .jmp _ => .jmp
  | .jne _ => .jne
  | .jeq _ => .jeq

/-- The operand bytes of an instruction, in operand order (R81). -/
def Instr.operands : Instr → List Byte
  | .hlt => []
  | .ldi r imm => [r, imm]
  | .prn r => [r]
  | .mul a b => [a, b]
  | .push r => [r]
  | .pop r => [r]
  | .call r => [r]
  | .ret => []
  | .add a b => [a, b]
  | .cmp a b => [a, b]
  | .jmp r => [r]
  | .jne r => [r]
  | .jeq r => [r]

/-- The bytes of an instruction: the opcode byte followed by its operand bytes (R80, R98). -/
def encode (i : Instr) : List Byte := i.opcode.byte :: i.operands

/-- Byte `k` of a number laid out with its least significant byte first. -/
def byteOf (w k : Nat) : Byte := BitVec.ofNat 8 (w / 256 ^ k)

/-- The longest instruction's bytes of a table word: byte 0 is bits 7..0, byte 1 is bits 15..8, byte 2 is bits 23..16,
and every bit from `nbits` on is 0. -/
def tableBytes (nbits w : Nat) : List Byte :=
  [byteOf (w % 2 ^ nbits) 0, byteOf (w % 2 ^ nbits) 1, byteOf (w % 2 ^ nbits) 2]

/-- The instruction the decoder reads from an opcode-table word. -/
def decodeTableWord (nbits w : Nat) : Option Instr :=
  match decode (tableBytes nbits w) with
  | .ok (i, _) => some i
  | .error _ => none

end Sys2Proof
end

