-- ==== Sys2Proof/Machine/Fetch.lean ====
section
/-! DEFINITION. Fetching: the opcode byte at `pc`, its decoding, and the operand bytes its format has (40_engine.md R119
to R121). Also how a program's bytes come to stand in memory. -/

namespace Sys2Proof.Machine

/-- The opcode byte (R119): FETCH_ADDRESS when `pc` is 256 or more. -/
def fetchOpcode (s : State) : Except FaultCause Byte := s.memRead .fetchAddress s.pc.toNat

/-- Operand byte `k` (R121): OPERAND_ADDRESS when `pc + k` is 256 or more. -/
def fetchOperand (s : State) (k : Nat) : Except FaultCause Byte := s.memRead .operandAddress (s.pc.toNat + k)

/-- Exactly the operand bytes of the format, `b1` before `b2` (R121; 92_eei_decisions.md D5). -/
def fetchOperands (s : State) (f : Format) : Except FaultCause (Byte × Byte) :=
  match f with
  | .n => .ok (0#8, 0#8)
  | .r => do
    let b1 ← fetchOperand s 1
    .ok (b1, 0#8)
  | .ri => do
    let b1 ← fetchOperand s 1
    let b2 ← fetchOperand s 2
    .ok (b1, b2)
  | .rr => do
    let b1 ← fetchOperand s 1
    let b2 ← fetchOperand s 2
    .ok (b1, b2)

/-- Fetch and decode (R119 to R121): the opcode is matched before any operand byte is read. -/
def fetch (s : State) : Except FaultCause Instr := do
  let op ← fetchOpcode s
  match decodeOpcode op with
  | none => .error (.unknownOpcode op)
  | some o =>
    let (b1, b2) ← fetchOperands s o.format
    .ok (o.assemble b1 b2)

/-- The bytes of memory from `pc` to the end of the address space. -/
def State.bytesAtPc (s : State) : List Byte :=
  (List.range (Config.memSize - s.pc.toNat)).map fun k => s.cell (s.pc.toNat + k)

/-- Stores bytes at `a`, `a + 1` and so on. -/
def State.placeBytes (s : State) (a : Nat) (bytes : List Byte) : State :=
  { s with memory := s.memory.writeBytes a bytes }

/-- Where the next instruction's bytes go: at `pc`, or at 0 where the longest instruction does not fit below 256. -/
def fetchRoom (pc : PcWord) : PcWord := if pc.toNat + 3 ≤ Config.memSize then pc else 0#9

end Sys2Proof.Machine
end

