-- ==== Sys2Proof/Machine/Step.lean ====
section
/-! DEFINITION. One whole step (40_engine.md R126), and the placing of one instruction where the next step fetches it. -/

namespace Sys2Proof.Machine

/-- R126, while `running = 1`: fetch, decode, operand fetch, register check and handler; a raised fault is taken (R226).
Otherwise the engine takes no step (R118; log entry 4). -/
def step (s : State) : Host.Outcome State Fault Refusal :=
  if s.running then
    match fetch s with
    | .ok i => exec i s
    | .error c => .next (s.takeFault c)
  else
    match s.fault with
    | none => .fault .halted
    | some _ => .fault .faulted

/-- `s` with a table word stored where `step` fetches, as the host's `load` and `start` would have it: the engine is
loaded and Running (70_reset_and_hazards.md R254; log entry 5). -/
def State.withFetchWord (s : State) (nbits w : Nat) : State :=
  { s.placeBytes (fetchRoom s.pc).toNat (tableBytes nbits w) with
    pc := fetchRoom s.pc, running := true, fault := none, loaded := true }

end Sys2Proof.Machine
end

