-- ==== Sys2Proof/Machine/Text.lean ====
section
/-! DEFINITION. The texts around the engine, none of them engine state: the assembly syntax (30_encoding.md R98), the
program file's lines (R99) and the output sink's lines (60_exceptions.md R236). A text is a list of characters. What the
spec leaves to the loader or the reader is in log entry 18. -/

namespace Sys2Proof.Machine

/-- A digit's value, 0 to 15. -/
def digitValue (c : Char) : Option Nat :=
  if '0'.toNat ≤ c.toNat ∧ c.toNat ≤ '9'.toNat then some (c.toNat - '0'.toNat)
  else if 'a'.toNat ≤ c.toNat ∧ c.toNat ≤ 'f'.toNat then some (c.toNat - 'a'.toNat + 10)
  else if 'A'.toNat ≤ c.toNat ∧ c.toNat ≤ 'F'.toNat then some (c.toNat - 'A'.toNat + 10)
  else none

/-- The value of digits in a base, after those already read; `none` where a character is no digit of the base. -/
def digitsFrom (base acc : Nat) (ds : List Char) : Option Nat :=
  match ds with
  | [] => some acc
  | c :: rest =>
    match digitValue c with
    | some d => if d < base then digitsFrom base (acc * base + d) rest else none
    | none => none

/-- A literal of at least one digit whose value lies in 0..255. -/
def byteLiteral (base : Nat) (ds : List Char) : Option Byte :=
  match ds with
  | [] => none
  | _ :: _ => (digitsFrom base 0 ds).bind fun n => if n < 256 then some (BitVec.ofNat 8 n) else none

/-- An immediate: decimal, `0x` hexadecimal or `0b` binary, in 0..255 (R98). -/
def parseImmediate (t : List Char) : Option Byte :=
  match t with
  | '0' :: 'x' :: ds => byteLiteral 16 ds
  | '0' :: 'b' :: ds => byteLiteral 2 ds
  | ds => byteLiteral 10 ds

/-- A register: `R0` to `R7`, `SP` for R7, or a bare decimal index 0 to 7 (R98, 00_scope.md R17). -/
def parseRegister (t : List Char) : Option Byte :=
  match t with
  | ['S', 'P'] => some 7#8
  | ['R', d] => (byteLiteral 10 [d]).bind fun b => if b.toNat < 8 then some b else none
  | [d] => (byteLiteral 10 [d]).bind fun b => if b.toNat < 8 then some b else none
  | _ => none

/-- Splits at commas and spaces; `cur` holds the token being read, reversed. DESIGN CHOICE (log entry 18): any run of
commas and spaces separates any two tokens, and one before the first token or after the last is dropped, where R98 speaks
of separators between operands only. -/
def tokensFrom (cur : List Char) (t : List Char) : List (List Char) :=
  match t with
  | [] => if cur.isEmpty then [] else [cur.reverse]
  | c :: rest =>
    if c = ' ' ∨ c = ',' then
      if cur.isEmpty then tokensFrom [] rest else cur.reverse :: tokensFrom [] rest
    else tokensFrom (c :: cur) rest

/-- The mnemonics of R86. -/
def mnemonicText : Opcode → List Char
  | .hlt => ['H', 'L', 'T']
  | .ldi => ['L', 'D', 'I']
  | .prn => ['P', 'R', 'N']
  | .mul => ['M', 'U', 'L']
  | .push => ['P', 'U', 'S', 'H']
  | .pop => ['P', 'O', 'P']
  | .call => ['C', 'A', 'L', 'L']
  | .ret => ['R', 'E', 'T']
  | .add => ['A', 'D', 'D']
  | .cmp => ['C', 'M', 'P']
  | .jmp => ['J', 'M', 'P']
  | .jne => ['J', 'N', 'E']
  | .jeq => ['J', 'E', 'Q']

/-- The thirteen tags in the order of R86. -/
def allOpcodes : List Opcode := [.hlt, .ldi, .prn, .mul, .push, .pop, .call, .ret, .add, .cmp, .jmp, .jne, .jeq]

/-- The operands of a format from their texts (R98). -/
def parseOperands (f : Format) (ts : List (List Char)) : Option (Byte × Byte) :=
  match f, ts with
  | .n, [] => some (0#8, 0#8)
  | .r, [t] => (parseRegister t).map fun r => (r, 0#8)
  | .ri, [t, u] => (parseRegister t).bind fun r => (parseImmediate u).map fun imm => (r, imm)
  | .rr, [t, u] => (parseRegister t).bind fun a => (parseRegister u).map fun b => (a, b)
  | _, _ => none

/-- One line of assembly: a mnemonic, then its operands separated by a comma, spaces or both (R98). -/
def parseAssembly (t : List Char) : Option Instr :=
  match tokensFrom [] t with
  | [] => none
  | m :: ts =>
    (allOpcodes.find? fun o => mnemonicText o == m).bind fun o =>
      (parseOperands o.format ts).map fun p => o.assemble p.1 p.2

/-- Each instruction assembles to its opcode byte followed by its operand bytes in operand order (R98). -/
def assembleLine (t : List Char) : Option (List Byte) := (parseAssembly t).map encode

/-- The decimal digits of a value. -/
def decimal (b : Byte) : List Char := Nat.toDigits 10 b.toNat

/-- `Rr`. -/
def registerText (r : Byte) : List Char := 'R' :: decimal r

/-- Format R, canonically. -/
def textR (o : Opcode) (r : Byte) : List Char := mnemonicText o ++ ' ' :: registerText r

/-- Format RR, canonically. -/
def textRR (o : Opcode) (a b : Byte) : List Char := textR o a ++ ',' :: ' ' :: registerText b

/-- The canonical syntax of R98. -/
def assemblyText : Instr → List Char
  | .hlt => mnemonicText .hlt
  | .ldi r imm => textR .ldi r ++ ',' :: ' ' :: decimal imm
  | .prn r => textR .prn r
  | .mul a b => textRR .mul a b
  | .push r => textR .push r
  | .pop r => textR .pop r
  | .call r => textR .call r
  | .ret => mnemonicText .ret
  | .add a b => textRR .add a b
  | .cmp a b => textRR .cmp a b
  | .jmp r => textR .jmp r
  | .jne r => textR .jne r
  | .jeq r => textR .jeq r

/-- What a line of a program file yields (R99). -/
inductive LoaderLine where
  /-- Blank, or a comment alone. -/
  | nothing
  /-- One program byte. -/
  | word (b : Byte)
  /-- Not a base-2 literal in 0..255: the loader's own affair (91_not_in_source.md N13). -/
  | malformed
  deriving DecidableEq, Repr

/-- White space around a literal. -/
def isBlankChar (c : Char) : Bool := c == ' ' || c == '\t' || c == '\r'

/-- One line of a program file (R99): the portion before any `#`, parsed as a base-2 literal. -/
def loaderLine (t : List Char) : LoaderLine :=
  let body := (((t.takeWhile (· != '#')).dropWhile isBlankChar).reverse.dropWhile isBlankChar).reverse
  if body.isEmpty then .nothing
  else
    match byteLiteral 2 body with
    | some b => .word b
    | none => .malformed

/-- The program of a file: its words in order, `none` where a line is malformed (R99). -/
def loaderWords (lines : List (List Char)) : Option (List Byte) :=
  match lines with
  | [] => some []
  | t :: rest =>
    match loaderLine t with
    | .nothing => loaderWords rest
    | .word b => (loaderWords rest).map (b :: ·)
    | .malformed => none

/-- The line the output sink writes for one event: its value in decimal (R236). -/
def sinkLine (v : Byte) : List Char := decimal v

/-- The sink's lines for a run's events, in execution order (R236). -/
def sinkLines (out : List Byte) : List (List Char) := out.map sinkLine

end Sys2Proof.Machine
end

