-- ==== Sys2Proof/Machine/HostActions.lean ====
section
/-! DEFINITION. The host's interface (40_engine.md R111): `reset`, `load`, `start`, `status` and `observe`
(70_reset_and_hazards.md R250 to R257), with the fault codes `status` reports (60_exceptions.md R220, R221). -/

namespace Sys2Proof.Machine

/-- What `load` answers (R251). -/
inductive LoadResult where
  /-- The program was placed. -/
  | ok
  /-- More than 256 words: error code 4, not stored in the latch (R220). -/
  | programTooLarge
  /-- `loaded` was already 1 (R251). -/
  | refused
  deriving DecidableEq, Repr

/-- What `start` answers (R252). -/
inductive StartResult where
  | accepted
  | refused
  deriving DecidableEq, Repr

/-- The second part of `fault.detail`: a number, or the tag of `UnsupportedOperation`, which has no number (R223). -/
inductive DetailValue where
  | number (n : Nat)
  | tag (op : AluOp)
  deriving DecidableEq, Repr

/-- What `status()` returns (R111): `running`, `fault.kind`, `fault.pc` and `fault.detail`. -/
structure StatusReport where
  running : Bool
  kind : Nat
  pc : Nat
  detail : Nat × DetailValue
  deriving DecidableEq, Repr

/-- What `observe()` returns (R256). -/
structure Observation where
  memory : Memory
  regs : RegFile
  pc : PcWord
  flags : Flags
  deriving DecidableEq, Repr

/-- The engine's status (10_state.md R41). -/
inductive EngineStatus where
  | halted
  | running
  | faulted
  deriving DecidableEq, Repr

/-- The code of a fault kind (R220). -/
def FaultCause.code : FaultCause → Nat
  | .unknownOpcode _ => 1
  | .outOfBounds _ _ => 2
  | .unsupportedOperation _ => 3

/-- The code of an `OutOfBounds` sub-kind (R221). -/
def BoundsKind.code : BoundsKind → Nat
  | .fetchAddress => 1
  | .operandAddress => 2
  | .registerIndex => 3
  | .spDecrement => 4
  | .spIncrement => 5
  | .returnAddress => 6

/-- `fault.detail` of a cause (R221 to R223). -/
def FaultCause.detail : FaultCause → Nat × DetailValue
  | .unknownOpcode op => (0, .number op.toNat)
  | .outOfBounds sub value => (sub.code, .number value)
  | .unsupportedOperation op => (0, .tag op)

/-- The error code `load` returns (R220): 4 for ProgramTooLarge. The spec gives no code to a refusal, and none to ok. -/
def LoadResult.errorCode : LoadResult → Option Nat
  | .ok => none
  | .programTooLarge => some 4
  | .refused => none

/-- Halted, Running or Faulted (R41). -/
def State.engineStatus (s : State) : EngineStatus :=
  if s.running then .running else if s.fault.isSome then .faulted else .halted

/-- `status()` (R111): an unwritten latch reads kind 0, pc 0 and detail 0 (R40). -/
def State.hostStatus (s : State) : StatusReport :=
  match s.fault with
  | none => ⟨s.running, 0, 0, (0, .number 0)⟩
  | some r => ⟨s.running, r.cause.code, r.pc.toNat, r.cause.detail⟩

/-- `observe()` (R256). -/
def State.hostObserve (s : State) : Observation := ⟨s.memory, s.regs, s.pc, s.flags⟩

/-- `reset()` (R250): every piece of engine state takes its value of R43, in any state. Events already sent are not
withdrawn, so `out` stays (log entry 2). -/
def State.hostReset (s : State) : State := { State.reset with out := s.out }

/-- `load(words)` (R251): refused once loaded; more than 256 words are ProgramTooLarge; neither changes anything. -/
def State.hostLoad (s : State) (words : List Byte) : LoadResult × State :=
  if s.loaded then (.refused, s)
  else if Config.maxProgram < words.length then (.programTooLarge, s)
  else (.ok, { s.placeBytes 0 words with loaded := true })

/-- When `start()` is accepted (R252). -/
def State.mayStart (s : State) : Bool := !s.running && s.fault.isNone && s.loaded

/-- `start()` (R252, R255): Halted to Running; refused otherwise, changing nothing. -/
def State.hostStart (s : State) : StartResult × State :=
  if s.mayStart then (.accepted, { s with running := true }) else (.refused, s)

end Sys2Proof.Machine
end

