-- ==== Sys2Proof/WellFormed.lean ====
section
/-! DEFINITION. Which instructions are legal: the only operand values that are not are register bytes of 8 or more
(30_encoding.md R82, R90). -/

namespace Sys2Proof

/-- The byte names one of R0 to R7 (R15). -/
def isRegByte (b : Byte) : Bool := decide (b.toNat < Config.regCount)

/-- Every register operand names a register; the immediate of LDI may be any byte (R82, R83, R90). -/
def Instr.WellFormed : Instr → Bool
  | .hlt => true
  | .ldi r _ => isRegByte r
  | .prn r => isRegByte r
  | .mul a b => isRegByte a && isRegByte b
  | .push r => isRegByte r
  | .pop r => isRegByte r
  | .call r => isRegByte r
  | .ret => true
  | .add a b => isRegByte a && isRegByte b
  | .cmp a b => isRegByte a && isRegByte b
  | .jmp r => isRegByte r
  | .jne r => isRegByte r
  | .jeq r => isRegByte r

end Sys2Proof
end

