-- ==== Sys2Proof/Safety.lean ====
section
/-! DEFINITION. The terms claims are stated in: the invariant, the reachable states, the order of a step's checks, the
runs with balanced stack use. None of this is used by `step`. -/

namespace Sys2Proof

/-- The instruction leaves the stack alone and the engine running: it is no stack instruction, no HLT, and does not name
R7 as its destination (44_control.md R196). -/
def Instr.leavesStack : Instr → Bool
  | .hlt => false
  | .ldi r _ => r != 7#8
  | .prn _ => true
  | .mul a _ => a != 7#8
  | .push _ => false
  | .pop _ => false
  | .call _ => false
  | .ret => false
  | .add a _ => a != 7#8
  | .cmp _ _ => true
  | .jmp _ => true
  | .jne _ => true
  | .jeq _ => true

/-- PUSH and CALL put one byte on the stack. -/
def Instr.pushes : Instr → Bool
  | .hlt => false
  | .ldi _ _ => false
  | .prn _ => false
  | .mul _ _ => false
  | .push _ => true
  | .pop _ => false
  | .call _ => true
  | .ret => false
  | .add _ _ => false
  | .cmp _ _ => false
  | .jmp _ => false
  | .jne _ => false
  | .jeq _ => false

/-- RET, and POP into any register but R7, take one byte off the stack. -/
def Instr.pops : Instr → Bool
  | .hlt => false
  | .ldi _ _ => false
  | .prn _ => false
  | .mul _ _ => false
  | .push _ => false
  | .pop r => r != 7#8
  | .call _ => false
  | .ret => true
  | .add _ _ => false
  | .cmp _ _ => false
  | .jmp _ => false
  | .jne _ => false
  | .jeq _ => false

end Sys2Proof

namespace Sys2Proof.Machine

/-- Running in the sense of 10_state.md R41: `running = 1`, and the latch is empty. -/
abbrev State.Ready (s : State) : Prop := s.running = true ∧ s.fault = none

/-- The state in which a step that raises `c` leaves the engine, written out from 60_exceptions.md R226. -/
def State.faulted (s : State) (c : FaultCause) : State :=
  { s with running := false, fault := some ⟨c, s.pc⟩ }

/-- At most one of E, L and G is 1 (10_state.md R38). -/
def Flags.atMostOne (f : Flags) : Bool := !(f.e && f.l) && !(f.e && f.g) && !(f.l && f.g)

/-- Exactly one of E, L and G is 1 (R38, R155). -/
def Flags.exactlyOne (f : Flags) : Bool := f.atMostOne && (f.e || f.l || f.g)

/-- A latch holds what 60_exceptions.md R221 and R222 record, with a `pc` in 0..256 (10_state.md R40). No instruction
raises `UnsupportedOperation` (42_arithmetic.md R156). -/
def FaultRecord.legal (r : FaultRecord) : Bool :=
  decide (r.pc.toNat ≤ 256) &&
    match r.cause with
    | .unknownOpcode op => (decodeOpcode op).isNone
    | .outOfBounds .fetchAddress v => v == 256 && r.pc.toNat == 256
    | .outOfBounds .operandAddress v => v == 256
    | .outOfBounds .registerIndex v => decide (8 ≤ v) && decide (v ≤ 255)
    | .outOfBounds .spDecrement v => v == 0
    | .outOfBounds .spIncrement v => v == 255
    | .outOfBounds .returnAddress v => v == 256
    | .unsupportedOperation _ => false

/-- What holds of the engine at all times. -/
structure State.Inv (s : State) : Prop where
  /-- The memory is in canonical form and lists no address outside 0..255. -/
  memory : Memory.Wf s.memory
  /-- `pc` is in 0..256 (10_state.md R35). -/
  pc : s.pc.toNat ≤ 256
  /-- At most one flag is 1 (R38). -/
  flags : s.flags.atMostOne = true
  /-- While Running, `fault.kind` is 0 (R41). -/
  noFaultRunning : s.running = true → s.fault = none
  /-- The engine runs, and faults, only after a load (70_reset_and_hazards.md R252). -/
  loadedFirst : s.running = true ∨ s.fault.isSome = true → s.loaded = true
  /-- A latched record is a legal one, and `pc` still holds the faulting address (60_exceptions.md R226, R227). -/
  latch : ∀ r, s.fault = some r → r.legal = true ∧ r.pc = s.pc

/-- The states an engine can be in: after reset, and after any host action or step (70_reset_and_hazards.md R257). -/
inductive Reachable : State → Prop where
  | reset : Reachable State.reset
  | hostReset {s : State} : Reachable s → Reachable s.hostReset
  | load {s : State} (words : List Byte) : Reachable s → Reachable (s.hostLoad words).2
  | start {s : State} : Reachable s → Reachable s.hostStart.2
  | step {s t : State} : Reachable s → step s = .next t → Reachable t

/-- The checks of one step in the order of 60_exceptions.md R225, each with the fault it raises (R221, R222): the fetch
address, the opcode, the operand addresses, the register bytes, then the instruction's own checks, with the
conditions of R224's table. -/
def State.faultChecks (s : State) : List (Bool × FaultCause) :=
  let pc := s.pc.toNat
  let op := s.cell pc
  let tag := decodeOpcode op
  let n := (tag.map Opcode.operandCount).getD 0
  let b1 := (s.cell (pc + 1)).toNat
  let b2 := (s.cell (pc + 2)).toNat
  let sp := s.sp.toNat
  let top := (s.cell sp).toNat
  [ (decide (256 ≤ pc), .outOfBounds .fetchAddress pc),
    (tag.isNone, .unknownOpcode op),
    (decide (1 ≤ n ∧ 256 ≤ pc + 1), .outOfBounds .operandAddress (pc + 1)),
    (decide (2 ≤ n ∧ 256 ≤ pc + 2), .outOfBounds .operandAddress (pc + 2)),
    (decide (1 ≤ n ∧ 8 ≤ b1), .outOfBounds .registerIndex b1),
    (decide (2 ≤ n ∧ tag ≠ some .ldi ∧ 8 ≤ b2), .outOfBounds .registerIndex b2),
    (decide ((tag = some .push ∨ tag = some .call) ∧ sp = 0), .outOfBounds .spDecrement 0),
    (decide (tag = some .call ∧ 256 ≤ pc + 2), .outOfBounds .returnAddress (pc + 2)),
    (decide (tag = some .ret ∧ sp = 255), .outOfBounds .spIncrement 255),
    (decide (tag = some .pop ∧ b1 ≠ 7 ∧ sp = 255), .outOfBounds .spIncrement 255),
    (decide (tag = some .pop ∧ b1 = 7 ∧ top = 255), .outOfBounds .spIncrement 255) ]

/-- The one fault a step raises: the first check that applies (R225). -/
def State.firstFault (s : State) : Option FaultCause := (s.faultChecks.find? (·.1)).map (·.2)

/-- One step that runs `i` and raises nothing. -/
def State.runs (s : State) (i : Instr) (t : State) : Prop :=
  s.Ready ∧ fetch s = .ok i ∧ step s = .next t ∧ t.fault = none

/-- The next `pc` of an instruction that raises nothing, as an exact number (10_state.md R36). -/
def State.nextPc (s : State) : Instr → Nat
  | .hlt => 0
  | .ldi _ _ => s.pc.toNat + 3
  | .prn _ => s.pc.toNat + 2
  | .mul _ _ => s.pc.toNat + 3
  | .push _ => s.pc.toNat + 2
  | .pop _ => s.pc.toNat + 2
  | .call r => if r.toNat = 7 then s.sp.toNat - 1 else s.regs[r.toNat]!.toNat
  | .ret => (s.cell s.sp.toNat).toNat
  | .add _ _ => s.pc.toNat + 3
  | .cmp _ _ => s.pc.toNat + 3
  | .jmp r => s.regs[r.toNat]!.toNat
  | .jne r => if s.flags.e then s.pc.toNat + 2 else s.regs[r.toNat]!.toNat
  | .jeq r => if s.flags.e then s.regs[r.toNat]!.toNat else s.pc.toNat + 2

/-- Runs without a fault in which every byte pushed is popped again, at any depth, and R7 is written by nothing but the
stack instructions (43_stack.md R174, 44_control.md R196: pushes and pops balanced in between). -/
inductive BalancedRun : State → State → Prop where
  | done (s : State) : BalancedRun s s
  | plain {s t u : State} {i : Instr} :
      s.runs i t → i.leavesStack = true → BalancedRun t u → BalancedRun s u
  | nested {s t u v w : State} {i j : Instr} :
      s.runs i t → i.pushes = true → BalancedRun t u →
      u.runs j v → j.pops = true → BalancedRun v w → BalancedRun s w

/-- The two states differ in L and G at most. -/
def State.sameButLG (s t : State) : Prop :=
  t = { s with flags := ⟨s.flags.e, t.flags.l, t.flags.g⟩ }

/-- The two answers are next states that differ in L and G at most, or the same stop. -/
def resultsSameButLG : StepResult → StepResult → Prop
  | .next s, .next t => s.sameButLG t
  | .fault a, .fault b => a = b
  | .refused a, .refused b => a = b
  | _, _ => False

end Sys2Proof.Machine
end

