-- ==== Sys2Proof/Certificates/Slice0/Obligations.lean ====
section
/-! DEFINITION. The statements for the provers. Each docstring names the rule of spec/ it formalises, and says where a
clause rests on a choice of the spec's own (92_eei_decisions.md) or of the model's (the assumption log). -/

open Sys2Proof Sys2Proof.Machine

/-! Encoding -/

/-- Decoding and encoding agree in both directions: bytes decode to `i` with `rest` left over exactly when they are the
encoding of `i` followed by `rest` (30_encoding.md R80, R81, R86, R87). Every operand byte is covered, the ill-formed ones
too. -/
def Obligations.DecodeEncodeAgree : Prop :=
  ∀ (bytes rest : List Byte) (i : Instr), decode bytes = .ok (i, rest) ↔ bytes = encode i ++ rest

/-- One word per row of the opcode table, written out from R86's binary column and R81's formats, decodes to its
instruction. -/
def Obligations.TableWordsDecode : Prop :=
  decodeTableWord 8 0b00000001 = some .hlt ∧
  decodeTableWord 24 0b00001000_00000101_10000010 = some (.ldi 5#8 8#8) ∧
  decodeTableWord 16 0b00000111_01000111 = some (.prn 7#8) ∧
  decodeTableWord 24 0b00000001_00000110_10100010 = some (.mul 6#8 1#8) ∧
  decodeTableWord 16 0b00000010_01000101 = some (.push 2#8) ∧
  decodeTableWord 16 0b00000011_01000110 = some (.pop 3#8) ∧
  decodeTableWord 16 0b00000001_01010000 = some (.call 1#8) ∧
  decodeTableWord 8 0b00010001 = some .ret ∧
  decodeTableWord 24 0b00000100_00000010_10100000 = some (.add 2#8 4#8) ∧
  decodeTableWord 24 0b00000011_00000000_10100111 = some (.cmp 0#8 3#8) ∧
  decodeTableWord 16 0b00000010_01010100 = some (.jmp 2#8) ∧
  decodeTableWord 16 0b00000100_01010110 = some (.jne 4#8) ∧
  decodeTableWord 16 0b00000110_01010101 = some (.jeq 6#8)

/-- R85 and R86: the dispatcher matches the whole opcode byte with the thirteen constants and nothing else, and each tag
has the table's format, operand bytes and length. -/
def Obligations.OpcodesMatchedLiterally : Prop :=
  (∀ (op : Byte) (o : Opcode), decodeOpcode op = some o ↔
    (op, o) ∈ [(0x01#8, Opcode.hlt), (0x82#8, .ldi), (0x47#8, .prn), (0xA2#8, .mul), (0x45#8, .push), (0x46#8, .pop),
      (0x50#8, .call), (0x11#8, .ret), (0xA0#8, .add), (0xA7#8, .cmp), (0x54#8, .jmp), (0x56#8, .jne), (0x55#8, .jeq)]) ∧
  ∀ o : Opcode, (o.format, o.operandCount, o.length) =
    match o with
    | .hlt => (.n, 0, 1)
    | .ldi => (.ri, 2, 3)
    | .prn => (.r, 1, 2)
    | .mul => (.rr, 2, 3)
    | .push => (.r, 1, 2)
    | .pop => (.r, 1, 2)
    | .call => (.r, 1, 2)
    | .ret => (.n, 0, 1)
    | .add => (.rr, 2, 3)
    | .cmp => (.rr, 2, 3)
    | .jmp => (.r, 1, 2)
    | .jne => (.r, 1, 2)
    | .jeq => (.r, 1, 2)

/-- R89 and R222: an opcode byte outside the thirteen never decodes, whatever follows it, and a Running engine that
fetches it takes UnknownOpcode with detail (0, the byte); there are 243 such bytes, 0x00 among them.
The rule rests on the spec's own decision D2 (92_eei_decisions.md). -/
def Obligations.UndefinedOpcodesRaise : Prop :=
  (∀ (s : State) (op : Byte),
    op ∉ [0x01#8, 0x82#8, 0x47#8, 0xA2#8, 0x45#8, 0x46#8, 0x50#8, 0x11#8, 0xA0#8, 0xA7#8, 0x54#8, 0x56#8, 0x55#8] →
    (∀ rest, decode (op :: rest) = .error (.unknownOpcode op)) ∧
    (s.running = true → s.pc.toNat < 256 → s.cell s.pc.toNat = op →
      step s = .next (s.faulted (.unknownOpcode op)) ∧
      (s.faulted (.unknownOpcode op)).hostStatus = ⟨false, 1, s.pc.toNat, (0, .number op.toNat)⟩)) ∧
  ((List.range 256).filter fun n => (decodeOpcode (BitVec.ofNat 8 n)).isNone).length = 243 ∧
  decodeOpcode 0x00#8 = none

/-- The bit pattern of the thirteen constants, which R88 derives from the table and which decoding does not use. -/
def Obligations.OpcodeBitPattern : Prop :=
  (∀ o : Opcode, o.byte.toNat / 64 = o.operandCount ∧
    (o.byte.getLsbD 5 = true ↔ o ∈ [Opcode.mul, .add, .cmp]) ∧
    (o.byte.getLsbD 4 = true ↔ o ∈ [Opcode.call, .ret, .jmp, .jeq, .jne])) ∧
  decodeOpcode 0b10111111#8 = none

/-! Reset, load and start -/

/-- R43 and R250: what every piece of state holds after reset, at power-on and after the host's `reset()` in any state.
The rule rests on the spec's own decisions D8 and D12 for the latch and `loaded` (92_eei_decisions.md). -/
def Obligations.ResetValues : Prop :=
  ∀ s t : State, t = State.reset ∨ t = s.hostReset →
    (∀ a, a < 256 → t.cell a = 0#8) ∧ (∀ r : RegIndex, r ≠ 7 → t.reg r = 0#8) ∧ t.reg 7 = 244#8 ∧ t.pc = 0#9 ∧
    t.flags = ⟨false, false, false⟩ ∧ t.running = false ∧ t.hostStatus = ⟨false, 0, 0, (0, .number 0)⟩ ∧
    t.loaded = false ∧ t.engineStatus = .halted

/-- R251: `load` places the words from address 0 and sets `loaded`; too long a program, and a load once loaded, change
nothing; after an empty load the first step raises UnknownOpcode(0).
The rule rests on the spec's own decisions D10, D11 and D12 (92_eei_decisions.md). -/
def Obligations.LoadPlacesProgram : Prop :=
  (∀ (s : State) (words : List Byte), Memory.Wf s.memory →
    (s.loaded = false → words.length ≤ 256 → ∃ t, s.hostLoad words = (.ok, t) ∧
      t = { s with memory := t.memory, loaded := true } ∧
      (∀ (k : Nat) (h : k < words.length), t.cell k = words[k]) ∧ ∀ a, words.length ≤ a → t.cell a = s.cell a) ∧
    (s.loaded = false → 256 < words.length → s.hostLoad words = (.programTooLarge, s)) ∧
    (s.loaded = true → s.hostLoad words = (.refused, s))) ∧
  ∀ s t : State, t = (s.hostReset.hostLoad []).2.hostStart.2 → step t = .next (t.faulted (.unknownOpcode 0#8))

/-- R252: `start` is accepted exactly when `running = 0`, `fault.kind = 0` and `loaded = 1`, and then sets `running` alone;
refused, it changes nothing.
The rule rests on the spec's own decisions D12 and D18 (92_eei_decisions.md). -/
def Obligations.StartAccepted : Prop :=
  ∀ s : State,
    (s.running = false ∧ s.hostStatus.kind = 0 ∧ s.loaded = true → s.hostStart = (.accepted, { s with running := true })) ∧
    (¬(s.running = false ∧ s.hostStatus.kind = 0 ∧ s.loaded = true) → s.hostStart = (.refused, s)) ∧
    ∀ words : List Byte, 256 < words.length → ((s.hostReset.hostLoad words).2.hostStart).1 = .refused

/-- What R254 derives: when the first step of a run starts, the engine is as after reset but for the program in memory,
`loaded` and `running`. -/
def Obligations.FirstStepState : Prop :=
  ∀ (s : State) (words : List Byte), words.length ≤ 256 →
    ∃ t, (s.hostReset.hostLoad words).2.hostStart = (.accepted, t) ∧
      t = { State.reset with memory := t.memory, loaded := true, running := true, out := s.out } ∧
      (∀ (k : Nat) (h : k < words.length), t.cell k = words[k]) ∧ ∀ a, words.length ≤ a → t.cell a = 0#8

/-- R255: after an HLT of a loaded engine `start()` runs the program again from address 0 with memory, registers and flags
as HLT left them, and no load is accepted.
The rule rests on the spec's own decision D18 (92_eei_decisions.md). -/
def Obligations.RerunAfterHalt : Prop :=
  ∀ s t : State, s.fault = none → s.loaded = true → exec .hlt s = .next t →
    t.hostStart = (.accepted, { s with pc := 0#9, running := true }) ∧ ∀ words, t.hostLoad words = (.refused, t)

/-- R227: a Faulted engine takes no step, refuses `start`, stays Faulted through any `load`, and is left only by `reset`.
The rule rests on the spec's own decision D9 (92_eei_decisions.md). -/
def Obligations.FaultedLeftOnlyByReset : Prop :=
  ∀ s : State, s.engineStatus = .faulted →
    (∀ t, step s ≠ .next t) ∧ s.hostStart = (.refused, s) ∧
    (∀ words, (s.hostLoad words).2.engineStatus = .faulted ∧ (s.hostLoad words).2.fault = s.fault) ∧
    s.hostReset.engineStatus = .halted

/-- R41: the status follows from `running` and `fault.kind`; `fault.kind` is 0 in every Running state an engine can be in;
only a Running engine steps.
The rule rests on the spec's own decision D8 (92_eei_decisions.md). -/
def Obligations.StatusFollowsState : Prop :=
  ∀ s : State,
    (s.engineStatus = .halted ↔ s.running = false ∧ s.hostStatus.kind = 0) ∧
    (s.engineStatus = .running ↔ s.running = true) ∧
    (s.engineStatus = .faulted ↔ s.running = false ∧ s.hostStatus.kind ≠ 0) ∧
    (Reachable s → s.engineStatus = .running → s.hostStatus.kind = 0) ∧
    ∀ t, step s = .next t → s.engineStatus = .running

/-! The step -/

/-- A step runs the decoded instruction: where the bytes from `pc` on decode to `i`, the step is `exec i` at that state,
with nothing around it (40_engine.md R126). It holds of the ill-formed instructions too. -/
def Obligations.StepRunsDecoded : Prop :=
  ∀ (s : State) (i : Instr) (rest : List Byte), s.running = true → decode s.bytesAtPc = .ok (i, rest) →
    step s = exec i s

/-- A Running engine always answers a next state, and an engine that is not Running takes no step (40_engine.md R118);
that this is the stop named `halted` or `faulted` is the model's form (log entry 4). -/
def Obligations.RunningEngineAlwaysSteps : Prop :=
  ∀ s : State,
    (s.running = true → ∃ t, step s = .next t) ∧
    (s.running = false → s.fault = none → step s = .fault .halted) ∧
    (s.running = false → s.fault ≠ none → step s = .fault .faulted)

/-- R65: an opcode fetch past the end raises FETCH_ADDRESS, an operand fetch past the end raises OPERAND_ADDRESS at the
first operand byte that does not exist, and the stack pointer's checks keep every stack address in range without a wrap.
The rule rests on the spec's own decision D1 (92_eei_decisions.md). -/
def Obligations.AddressesNeverWrap : Prop :=
  ∀ s : State,
    (s.running = true → 256 ≤ s.pc.toNat → step s = .next (s.faulted (.outOfBounds .fetchAddress s.pc.toNat))) ∧
    (∀ (o : Opcode) (k : Nat), s.running = true → s.pc.toNat < 256 → decodeOpcode (s.cell s.pc.toNat) = some o →
      1 ≤ k → k ≤ o.operandCount → s.pc.toNat + (k - 1) < 256 → 256 ≤ s.pc.toNat + k →
      step s = .next (s.faulted (.outOfBounds .operandAddress (s.pc.toNat + k)))) ∧
    (∀ v, spDec s.sp = .ok v → v.toNat + 1 = s.sp.toNat) ∧ s.sp.toNat < 256

/-- R226: a step that raises clears `running` and records kind, detail and the unchanged `pc`; registers, memory, flags,
`pc`, `loaded` and the output events are as before.
The rule rests on the spec's own decisions D7 and D8 (92_eei_decisions.md). -/
def Obligations.FaultsArePrecise : Prop :=
  ∀ (s t : State) (r : FaultRecord), s.Ready → step s = .next t → t.fault = some r →
    t = { s with running := false, fault := some r } ∧ r.pc = s.pc ∧
    t.hostStatus = ⟨false, r.cause.code, s.pc.toNat, r.cause.detail⟩ ∧ t.engineStatus = .faulted

/-- R225: one step raises at most one fault, the first that applies in the order of `State.faultChecks`, and it raises
none where no check applies.
The rule rests on the spec's own decision D7 (92_eei_decisions.md). -/
def Obligations.FirstFaultByPriority : Prop :=
  ∀ s : State, s.Ready → ∃ t, step s = .next t ∧ t.fault = s.firstFault.map fun c => ⟨c, s.pc⟩

/-- R127: a step leaves `running` at 0 exactly when it ran HLT or took a fault.
The rule rests on the spec's own decision D8 (92_eei_decisions.md). -/
def Obligations.OnlyHltAndFaultsStop : Prop :=
  ∀ s t : State, s.Ready → step s = .next t →
    (t.running = false ↔ fetch s = .ok .hlt ∨ t.fault.isSome = true)

/-- No instruction raises UnsupportedOperation (what R156 derives). -/
def Obligations.NoStepUnsupported : Prop :=
  ∀ (s t : State) (r : FaultRecord) (tag : AluOp), s.Ready → step s = .next t → t.fault = some r →
    r.cause ≠ .unsupportedOperation tag

/-- What R36 and R35 say of the next `pc` of an instruction that raises nothing, as an exact number: no advance wraps. -/
def Obligations.NextPcExact : Prop :=
  ∀ (s t : State) (i : Instr), s.runs i t → t.pc.toNat = s.nextPc i ∧ t.pc.toNat ≤ 256

/-- R42: `loaded` is 0 after reset, 1 after the load, and no program can see or change it: a step does the same whatever
it holds.
The rule rests on the spec's own decision D12 (92_eei_decisions.md). -/
def Obligations.LoadedInvisible : Prop :=
  State.reset.loaded = false ∧
  (∀ (s t : State) (words : List Byte), s.hostLoad words = (.ok, t) → t.loaded = true) ∧
  ∀ (s t : State) (b : Bool), step s = .next t →
    t.loaded = s.loaded ∧ step { s with loaded := b } = .next { t with loaded := b }

/-- R117: each PRN that completes sends one event after those already sent, and nothing else sends any. `out` is the model's record
of the events (log entry 1). The rule rests on the spec's own decision D20 (92_eei_decisions.md). -/
def Obligations.OutputEvents : Prop :=
  ∀ s t : State, s.Ready → step s = .next t →
    (∀ (r : Byte) (h : r.toNat < 8), fetch s = .ok (.prn r) → t.fault = none ∧ t.out = s.out ++ [s.regs[r.toNat]]) ∧
    ((∀ r, fetch s ≠ .ok (.prn r)) ∨ t.fault.isSome = true → t.out = s.out)

/-- Only CMP writes the flags, and a CMP that completes leaves exactly one at 1; at most one is 1 in every state an
engine can be in (10_state.md section 5). -/
def Obligations.OnlyCmpWritesFlags : Prop :=
  (∀ s t : State, s.Ready → step s = .next t →
    (t.flags ≠ s.flags → ∃ a b, fetch s = .ok (.cmp a b)) ∧
    (∀ a b, fetch s = .ok (.cmp a b) → t.fault = none → t.flags.exactlyOne = true)) ∧
  ∀ s, Reachable s → s.flags.atMostOne = true

/-- No instruction reads L or G (10_state.md section 5): runs from two states that differ in L and G alone, of any number
of steps, end in states that differ in L and G at most, or in the same stop. -/
def Obligations.LessGreaterUnobserved : Prop :=
  ∀ (k : Nat) (s t : State), s.sameButLG t →
    resultsSameButLG (Host.Core.run Sys2Proof.core k s) (Host.Core.run Sys2Proof.core k t)

/-- Only PUSH and CALL write memory, and only the cell at `SP - 1` (20_memory.md section 1). -/
def Obligations.OnlyPushAndCallStore : Prop :=
  ∀ (s t : State) (a : Nat), step s = .next t → t.cell a ≠ s.cell a →
    (∃ r, fetch s = .ok (.push r) ∨ fetch s = .ok (.call r)) ∧ a + 1 = s.sp.toNat

/-- A byte that PUSH or CALL writes is what a later fetch of that address reads, as opcode or as operand (what R71
derives): `v` is the byte of the rule, and `p` any `pc` from which the address is fetched. -/
def Obligations.FetchSeesStore : Prop :=
  ∀ (s t : State) (i : Instr) (v : Byte), Memory.Wf s.memory → s.runs i t →
    ((∃ (r : Byte) (h : r.toNat < 8), i = .push r ∧ v = t.regs[r.toNat]) ∨
      (∃ r, i = .call r ∧ v.toNat = s.pc.toNat + 2)) →
    (∀ p : PcWord, p.toNat = t.sp.toNat → fetchOpcode { t with pc := p } = .ok v) ∧
    ∀ (p : PcWord) (k : Nat), p.toNat + k = t.sp.toNat → fetchOperand { t with pc := p } k = .ok v

/-! The invariant -/

/-- The invariant holds right after reset. -/
def Obligations.InvAtReset : Prop := State.reset.Inv

/-- Every step keeps the invariant: the memory's canonical form, `pc` in 0..256, at most one flag, no latched fault while
Running, nothing run before a load, and a latch that holds what R221 and R222 record. -/
def Obligations.InvKeptByStep : Prop := ∀ s t : State, s.Inv → step s = .next t → t.Inv

/-- The invariant holds of every state an engine can be in, through any host actions and steps. -/
def Obligations.InvOfReachable : Prop := ∀ s : State, Reachable s → s.Inv

/-! The instructions -/

/-- R124, HLT: `running <- 0` and `pc <- 0`, at address 255 too, and nothing else changes; the engine is then Halted, and
once loaded it may be started again. -/
def Obligations.HltHalts : Prop :=
  ∀ s : State,
    decode [0x01#8] = .ok (.hlt, []) ∧
    exec .hlt s = .next { s with running := false, pc := 0#9 } ∧
    (s.running = true → s.pc.toNat ≤ 255 → s.cell s.pc.toNat = 0x01#8 →
      step s = .next { s with running := false, pc := 0#9 }) ∧
    (s.fault = none → { s with running := false, pc := 0#9 }.engineStatus = .halted) ∧
    (s.fault = none → s.loaded = true →
      { s with running := false, pc := 0#9 }.hostStart = (.accepted, { s with running := true, pc := 0#9 }))

/-- R140, LDI: the immediate as it is, into any register, R7 among them. -/
def Obligations.LdiLoadsImmediate : Prop :=
  ∀ (s : State) (r imm : Byte),
    decode [0x82#8, r, imm] = .ok (.ldi r imm, []) ∧
    (∀ h : r.toNat < 8, exec (.ldi r imm) s = .next { s with regs := s.regs.set r.toNat imm h, pc := s.pc + 3#9 }) ∧
    (8 ≤ r.toNat → exec (.ldi r imm) s = .next (s.faulted (.outOfBounds .registerIndex r.toNat))) ∧
    (s.running = true → s.pc.toNat = 254 ∨ s.pc.toNat = 255 → s.cell s.pc.toNat = 0x82#8 →
      step s = .next (s.faulted (.outOfBounds .operandAddress 256)))

/-- R141, PRN. The event is the byte appended to `out`, the model's record of the events (log entry 1). -/
def Obligations.PrnEmits : Prop :=
  ∀ (s : State) (r : Byte),
    decode [0x47#8, r] = .ok (.prn r, []) ∧
    (∀ h : r.toNat < 8, exec (.prn r) s = .next { s with out := s.out ++ [s.regs[r.toNat]], pc := s.pc + 2#9 }) ∧
    (8 ≤ r.toNat → exec (.prn r) s = .next (s.faulted (.outOfBounds .registerIndex r.toNat))) ∧
    (s.running = true → s.pc.toNat = 255 → s.cell s.pc.toNat = 0x47#8 →
      step s = .next (s.faulted (.outOfBounds .operandAddress 256)))

/-- R152, ADD: the exact sum modulo 256; no flag is written. -/
def Obligations.AddWraps : Prop :=
  ∀ (s : State) (a b : Byte),
    decode [0xA0#8, a, b] = .ok (.add a b, []) ∧
    (∀ (ha : a.toNat < 8) (hb : b.toNat < 8), ∃ v : Byte,
      v.toNat = (s.regs[a.toNat].toNat + s.regs[b.toNat].toNat) % 256 ∧
      exec (.add a b) s = .next { s with regs := s.regs.set a.toNat v ha, pc := s.pc + 3#9 }) ∧
    (8 ≤ a.toNat → exec (.add a b) s = .next (s.faulted (.outOfBounds .registerIndex a.toNat))) ∧
    (a.toNat < 8 → 8 ≤ b.toNat → exec (.add a b) s = .next (s.faulted (.outOfBounds .registerIndex b.toNat))) ∧
    (s.running = true → s.pc.toNat = 254 ∨ s.pc.toNat = 255 → s.cell s.pc.toNat = 0xA0#8 →
      step s = .next (s.faulted (.outOfBounds .operandAddress 256)))

/-- R153, MUL: the exact product modulo 256; no flag is written. -/
def Obligations.MulWraps : Prop :=
  ∀ (s : State) (a b : Byte),
    decode [0xA2#8, a, b] = .ok (.mul a b, []) ∧
    (∀ (ha : a.toNat < 8) (hb : b.toNat < 8), ∃ v : Byte,
      v.toNat = (s.regs[a.toNat].toNat * s.regs[b.toNat].toNat) % 256 ∧
      exec (.mul a b) s = .next { s with regs := s.regs.set a.toNat v ha, pc := s.pc + 3#9 }) ∧
    (8 ≤ a.toNat → exec (.mul a b) s = .next (s.faulted (.outOfBounds .registerIndex a.toNat))) ∧
    (a.toNat < 8 → 8 ≤ b.toNat → exec (.mul a b) s = .next (s.faulted (.outOfBounds .registerIndex b.toNat))) ∧
    (s.running = true → s.pc.toNat = 254 ∨ s.pc.toNat = 255 → s.cell s.pc.toNat = 0xA2#8 →
      step s = .next (s.faulted (.outOfBounds .operandAddress 256)))

/-- R155, CMP: E, L and G from the unsigned comparison of register A with register B, exactly one at 1. The direction of L and
G is the spec's own reading of "`registers[regA]` vs `registers[regB]`" (42_arithmetic.md section 2, decision D21). -/
def Obligations.CmpSetsFlags : Prop :=
  ∀ (s : State) (a b : Byte),
    decode [0xA7#8, a, b] = .ok (.cmp a b, []) ∧
    (∀ (_ : a.toNat < 8) (_ : b.toNat < 8), ∃ f : Flags,
      exec (.cmp a b) s = .next { s with flags := f, pc := s.pc + 3#9 } ∧
      (f.e = true ↔ s.regs[a.toNat] = s.regs[b.toNat]) ∧
      (f.l = true ↔ s.regs[a.toNat].toNat < s.regs[b.toNat].toNat) ∧
      (f.g = true ↔ s.regs[a.toNat].toNat > s.regs[b.toNat].toNat) ∧ f.exactlyOne = true) ∧
    (8 ≤ a.toNat → exec (.cmp a b) s = .next (s.faulted (.outOfBounds .registerIndex a.toNat))) ∧
    (a.toNat < 8 → 8 ≤ b.toNat → exec (.cmp a b) s = .next (s.faulted (.outOfBounds .registerIndex b.toNat))) ∧
    (s.running = true → s.pc.toNat = 254 ∨ s.pc.toNat = 255 → s.cell s.pc.toNat = 0xA7#8 →
      step s = .next (s.faulted (.outOfBounds .operandAddress 256)))

/-- R172, PUSH: the stack pointer is decremented first, so PUSH R7 stores the decremented one; every other cell is as
before. The premise on the memory is part of the invariant.
The rule rests on the spec's own decision D17 (92_eei_decisions.md). -/
def Obligations.PushStores : Prop :=
  ∀ (s : State) (r : Byte), Memory.Wf s.memory →
    decode [0x45#8, r] = .ok (.push r, []) ∧
    (∀ h : r.toNat < 8, s.sp ≠ 0#8 → ∃ t, exec (.push r) s = .next t ∧
      t = { s with memory := t.memory, regs := s.regs.set 7 (s.sp - 1#8), pc := s.pc + 2#9 } ∧
      t.cell (s.sp.toNat - 1) = (if r.toNat = 7 then s.sp - 1#8 else s.regs[r.toNat]) ∧
      ∀ x, x ≠ s.sp.toNat - 1 → t.cell x = s.cell x) ∧
    (8 ≤ r.toNat → exec (.push r) s = .next (s.faulted (.outOfBounds .registerIndex r.toNat))) ∧
    (r.toNat < 8 → s.sp = 0#8 → exec (.push r) s = .next (s.faulted (.outOfBounds .spDecrement 0))) ∧
    (s.running = true → s.pc.toNat = 255 → s.cell s.pc.toNat = 0x45#8 →
      step s = .next (s.faulted (.outOfBounds .operandAddress 256)))

/-- R173, POP: into R7 the popped byte is incremented; into any other register the stack pointer is.
The rule rests on the spec's own decision D17 (92_eei_decisions.md). -/
def Obligations.PopLoads : Prop :=
  ∀ (s : State) (r : Byte),
    decode [0x46#8, r] = .ok (.pop r, []) ∧
    (∀ h : r.toNat < 8, r.toNat ≠ 7 → s.sp ≠ 255#8 → exec (.pop r) s =
      .next { s with regs := (s.regs.set r.toNat (s.cell s.sp.toNat) h).set 7 (s.sp + 1#8), pc := s.pc + 2#9 }) ∧
    (r.toNat = 7 → s.cell s.sp.toNat ≠ 255#8 → exec (.pop r) s =
      .next { s with regs := s.regs.set 7 (s.cell s.sp.toNat + 1#8), pc := s.pc + 2#9 }) ∧
    (8 ≤ r.toNat → exec (.pop r) s = .next (s.faulted (.outOfBounds .registerIndex r.toNat))) ∧
    (r.toNat < 7 → s.sp = 255#8 → exec (.pop r) s = .next (s.faulted (.outOfBounds .spIncrement 255))) ∧
    (r.toNat = 7 → s.cell s.sp.toNat = 255#8 → exec (.pop r) s = .next (s.faulted (.outOfBounds .spIncrement 255))) ∧
    (s.running = true → s.pc.toNat = 255 → s.cell s.pc.toNat = 0x46#8 →
      step s = .next (s.faulted (.outOfBounds .operandAddress 256)))

/-- R190, CALL: the return address `pc + 2` goes to the decremented stack pointer's cell, the target is read after the
decrement, SP_DECREMENT comes before RETURN_ADDRESS. The premise on the memory is part of the invariant.
The rule rests on the spec's own decisions D1 and D17 (92_eei_decisions.md). -/
def Obligations.CallPushesReturn : Prop :=
  ∀ (s : State) (r : Byte), Memory.Wf s.memory →
    decode [0x50#8, r] = .ok (.call r, []) ∧
    (∀ h : r.toNat < 8, s.sp ≠ 0#8 → s.pc.toNat + 2 < 256 → ∃ t, exec (.call r) s = .next t ∧
      t = { s with memory := t.memory, regs := s.regs.set 7 (s.sp - 1#8), pc := t.pc } ∧
      t.pc.toNat = (if r.toNat = 7 then s.sp.toNat - 1 else s.regs[r.toNat].toNat) ∧
      (t.cell (s.sp.toNat - 1)).toNat = s.pc.toNat + 2 ∧
      ∀ x, x ≠ s.sp.toNat - 1 → t.cell x = s.cell x) ∧
    (8 ≤ r.toNat → exec (.call r) s = .next (s.faulted (.outOfBounds .registerIndex r.toNat))) ∧
    (r.toNat < 8 → s.sp = 0#8 → exec (.call r) s = .next (s.faulted (.outOfBounds .spDecrement 0))) ∧
    (r.toNat < 8 → s.sp ≠ 0#8 → s.pc.toNat = 254 →
      exec (.call r) s = .next (s.faulted (.outOfBounds .returnAddress 256))) ∧
    (s.running = true → s.pc.toNat = 255 → s.cell s.pc.toNat = 0x50#8 →
      step s = .next (s.faulted (.outOfBounds .operandAddress 256)))

/-- R191, RET: it reads no operand byte, so it runs at address 255. -/
def Obligations.RetPopsTarget : Prop :=
  ∀ s : State,
    decode [0x11#8] = .ok (.ret, []) ∧
    (s.sp ≠ 255#8 → ∃ t, exec .ret s = .next t ∧
      t = { s with regs := s.regs.set 7 (s.sp + 1#8), pc := t.pc } ∧ t.pc.toNat = (s.cell s.sp.toNat).toNat) ∧
    (s.sp = 255#8 → exec .ret s = .next (s.faulted (.outOfBounds .spIncrement 255))) ∧
    (s.running = true → s.pc.toNat ≤ 255 → s.cell s.pc.toNat = 0x11#8 → step s = exec .ret s)

/-- R193, JMP: `pc` takes the register's value; nothing else changes. -/
def Obligations.JmpJumps : Prop :=
  ∀ (s : State) (r : Byte),
    decode [0x54#8, r] = .ok (.jmp r, []) ∧
    (∀ h : r.toNat < 8, ∃ t, exec (.jmp r) s = .next t ∧ t = { s with pc := t.pc } ∧
      t.pc.toNat = s.regs[r.toNat].toNat) ∧
    (8 ≤ r.toNat → exec (.jmp r) s = .next (s.faulted (.outOfBounds .registerIndex r.toNat))) ∧
    (s.running = true → s.pc.toNat = 255 → s.cell s.pc.toNat = 0x54#8 →
      step s = .next (s.faulted (.outOfBounds .operandAddress 256)))

/-- R194, JEQ: it branches when E is 1; the register byte is checked either way.
The rule rests on the spec's own decision D6 (92_eei_decisions.md). -/
def Obligations.JeqBranchesOnEqual : Prop :=
  ∀ (s : State) (r : Byte),
    decode [0x55#8, r] = .ok (.jeq r, []) ∧
    (∀ h : r.toNat < 8, s.flags.e = true → ∃ t, exec (.jeq r) s = .next t ∧ t = { s with pc := t.pc } ∧
      t.pc.toNat = s.regs[r.toNat].toNat) ∧
    (r.toNat < 8 → s.flags.e = false → exec (.jeq r) s = .next { s with pc := s.pc + 2#9 }) ∧
    (8 ≤ r.toNat → exec (.jeq r) s = .next (s.faulted (.outOfBounds .registerIndex r.toNat))) ∧
    (s.running = true → s.pc.toNat = 255 → s.cell s.pc.toNat = 0x55#8 →
      step s = .next (s.faulted (.outOfBounds .operandAddress 256)))

/-- R195, JNE: it branches when E is 0; the register byte is checked either way.
The rule rests on the spec's own decision D6 (92_eei_decisions.md). -/
def Obligations.JneBranchesOnUnequal : Prop :=
  ∀ (s : State) (r : Byte),
    decode [0x56#8, r] = .ok (.jne r, []) ∧
    (∀ h : r.toNat < 8, s.flags.e = false → ∃ t, exec (.jne r) s = .next t ∧ t = { s with pc := t.pc } ∧
      t.pc.toNat = s.regs[r.toNat].toNat) ∧
    (r.toNat < 8 → s.flags.e = true → exec (.jne r) s = .next { s with pc := s.pc + 2#9 }) ∧
    (8 ≤ r.toNat → exec (.jne r) s = .next (s.faulted (.outOfBounds .registerIndex r.toNat))) ∧
    (s.running = true → s.pc.toNat = 255 → s.cell s.pc.toNat = 0x56#8 →
      step s = .next (s.faulted (.outOfBounds .operandAddress 256)))

/-- A JMP to its own address runs for ever and is no error (R193's corner case, 40_engine.md R125): after any number of
steps the state is the same. -/
def Obligations.JmpToItselfNeverEnds : Prop :=
  ∀ (s : State) (r : Byte) (h : r.toNat < 8) (k : Nat), s.running = true → s.pc.toNat + 1 < 256 →
    s.cell s.pc.toNat = 0x54#8 → s.cell (s.pc.toNat + 1) = r → s.regs[r.toNat].toNat = s.pc.toNat →
    Host.Core.run Sys2Proof.core k s = .next s

/-! The ALU and the stack pointer unit -/

/-- R151: ADD is modulo 256 in place; any other tag writes no register and is a fault that ends the run, of kind 3 with
detail (0, the tag), on the ALU's own interface. That this holds on an engine that is not Running, and whatever the latch
held, is the model's choice (log entry 21). -/
def Obligations.AluAddsOrReports : Prop :=
  ∀ (a b : RegIndex) (s : State) (tag : Fin (Config.otherAluTags + 1)),
    (∃ v : Byte, v.toNat = (s.regs[a].toNat + s.regs[b].toNat) % 256 ∧
      aluExec .add a b s.regs = .ok (s.regs.set a.val v a.isLt) ∧
      aluTransaction .add a b s = .next { s with regs := s.regs.set a.val v a.isLt }) ∧
    aluExec (.other tag) a b s.regs = .error (.unsupportedOperation (.other tag)) ∧
    aluTransaction (.other tag) a b s = .next (s.faulted (.unsupportedOperation (.other tag))) ∧
    (s.faulted (.unsupportedOperation (.other tag))).hostStatus = ⟨false, 3, s.pc.toNat, (0, .tag (.other tag))⟩

/-- R170 and R171: the stack pointer moves by exactly 1 or raises; it never wraps.
The rule rests on the spec's own decision D1 (92_eei_decisions.md). -/
def Obligations.StackPointerNeverWraps : Prop :=
  spDec 0#8 = .error (.outOfBounds .spDecrement 0) ∧
  (∀ sp : Byte, sp ≠ 0#8 → ∃ v, spDec sp = .ok v ∧ v.toNat + 1 = sp.toNat) ∧
  spInc 255#8 = .error (.outOfBounds .spIncrement 255) ∧
  ∀ sp : Byte, sp ≠ 255#8 → ∃ v, spInc sp = .ok v ∧ v.toNat = sp.toNat + 1

/-! Frames -/

/-- LDI, ADD and MUL: every register but the destination, every flag, every byte of memory, `loaded` and the events are as
before, and so are `running` and the latch unless a fault was taken, which changes nothing else. -/
def Obligations.RegisterWriteFrame : Prop :=
  ∀ (i : Instr) (s t : State) (d : Byte),
    (∃ x, i = .ldi d x ∨ i = .add d x ∨ i = .mul d x) → exec i s = .next t →
    (∀ q : RegIndex, q.val ≠ d.toNat → t.reg q = s.reg q) ∧ t.flags = s.flags ∧ (∀ x, t.cell x = s.cell x) ∧
    t.loaded = s.loaded ∧ t.out = s.out ∧
    ((t.running = s.running ∧ t.fault = s.fault) ∨ ∃ c, t = s.faulted c)

/-- PRN, CMP, JMP, JEQ, JNE and HLT: every register and every byte of memory is as before; the flags too unless it is CMP,
the events unless it is PRN, `running` unless it is HLT or a fault was taken. -/
def Obligations.NoWriteFrame : Prop :=
  ∀ (i : Instr) (s t : State),
    (∃ r b, i = .prn r ∨ i = .cmp r b ∨ i = .jmp r ∨ i = .jeq r ∨ i = .jne r ∨ i = .hlt) → exec i s = .next t →
    (∀ q : RegIndex, t.reg q = s.reg q) ∧ (∀ x, t.cell x = s.cell x) ∧ t.loaded = s.loaded ∧
    ((∀ a b, i ≠ .cmp a b) → t.flags = s.flags) ∧ ((∀ r, i ≠ .prn r) → t.out = s.out) ∧
    ((t.fault = s.fault ∧ (i ≠ .hlt → t.running = s.running)) ∨ ∃ c, t = s.faulted c)

/-- PUSH and CALL: every register but R7, the flags, `loaded` and the events are as before, and every byte of memory
outside the one at `Dec(SP)`, the address the handler stores to; where a fault is taken nothing is stored. -/
def Obligations.StackStoreFrame : Prop :=
  ∀ (i : Instr) (s t : State) (r : Byte), i = .push r ∨ i = .call r → exec i s = .next t →
    (∀ q : RegIndex, q ≠ 7 → t.reg q = s.reg q) ∧ t.flags = s.flags ∧ t.loaded = s.loaded ∧ t.out = s.out ∧
    (∀ a : Byte, spDec s.sp = .ok a → ∀ x, x ≠ a.toNat → t.cell x = s.cell x) ∧
    ((t.running = s.running ∧ t.fault = s.fault ∧ ∃ a, spDec s.sp = .ok a) ∨ ∃ c, t = s.faulted c)

/-- POP and RET: every register but R7 and POP's destination, the flags, every byte of memory (the cell read is not
cleared), `loaded` and the events are as before. -/
def Obligations.StackLoadFrame : Prop :=
  ∀ (i : Instr) (s t : State), (∃ r, i = .pop r) ∨ i = .ret → exec i s = .next t →
    (∀ q : RegIndex, q ≠ 7 → (∀ r, i = .pop r → q.val ≠ r.toNat) → t.reg q = s.reg q) ∧ t.flags = s.flags ∧
    (∀ x, t.cell x = s.cell x) ∧ t.loaded = s.loaded ∧ t.out = s.out ∧
    ((t.running = s.running ∧ t.fault = s.fault) ∨ ∃ c, t = s.faulted c)

/-! The stack discipline -/

/-- The stack pointer falls by exactly 1 on PUSH and CALL, and rises by exactly 1 on RET and on POP into any register but
R7, whenever the instruction does not fault (90_conflicts.md C5). -/
def Obligations.StackPointerMovesByOne : Prop :=
  ∀ (s t : State) (i : Instr), s.runs i t →
    (i.pushes = true → t.sp.toNat + 1 = s.sp.toNat) ∧ (i.pops = true → t.sp.toNat = s.sp.toNat + 1)

/-- A run with balanced stack use leaves the stack pointer where it was and every cell at or above it unchanged. -/
def Obligations.BalancedRunKeepsStack : Prop :=
  ∀ s t : State, BalancedRun s t → t.sp = s.sp ∧ ∀ a, s.sp.toNat ≤ a → t.cell a = s.cell a

/-- What R174 derives: a PUSH of X, balanced stack use, then a POP into Y other than R7 gives Y the value X had just after
the decrement (for X other than R7, its value before the PUSH) and restores the stack pointer. -/
def Obligations.PushThenPop : Prop :=
  ∀ (s t u v : State) (x y : Byte) (hx : x.toNat < 8) (hy : y.toNat < 8), Memory.Wf s.memory →
    s.runs (.push x) t → BalancedRun t u → u.runs (.pop y) v → y.toNat ≠ 7 →
    v.regs[y.toNat] = t.regs[x.toNat] ∧ (x.toNat ≠ 7 → v.regs[y.toNat] = s.regs[x.toNat]) ∧ v.sp = s.sp

/-- What R196 derives: a CALL at address `c`, balanced stack use to any depth, then the matching RET sets `pc` to `c + 2`
and restores the stack pointer. -/
def Obligations.CallThenRet : Prop :=
  ∀ (s t u v : State) (r : Byte), Memory.Wf s.memory →
    s.runs (.call r) t → BalancedRun t u → u.runs .ret v → v.pc.toNat = s.pc.toNat + 2 ∧ v.sp = s.sp

/-! Fault codes and texts -/

/-- R229: `status()` tells every fault from every other, and from none: two engines whose status is the same have the same
latch.
The rule rests on the spec's own decision D8 (92_eei_decisions.md). -/
def Obligations.StatusDistinguishesFaults : Prop :=
  ∀ s t : State, s.hostStatus = t.hostStatus → s.running = t.running ∧ s.fault = t.fault

/-- The codes of 60_exceptions.md section 1: kinds 1, 2 and 3, sub-kinds 1 to 6, and 4 for a program that is too large,
which `load` returns and no latch holds. -/
def Obligations.FaultCodes : Prop :=
  (∀ op, FaultCause.code (.unknownOpcode op) = 1) ∧ (∀ sub v, FaultCause.code (.outOfBounds sub v) = 2) ∧
  (∀ tag, FaultCause.code (.unsupportedOperation tag) = 3) ∧ LoadResult.errorCode .programTooLarge = some 4 ∧
  [BoundsKind.fetchAddress, .operandAddress, .registerIndex, .spDecrement, .spIncrement, .returnAddress].map
    BoundsKind.code = [1, 2, 3, 4, 5, 6] ∧
  ∀ (s : State) (words : List Byte), (s.hostLoad words).2.fault = s.fault

/-- The canonical assembly text of a well-formed instruction assembles to its bytes (30_encoding.md R98, the spec's own
decision D16). -/
def Obligations.CanonicalTextAssembles : Prop :=
  ∀ i : Instr, i.WellFormed = true → assembleLine (assemblyText i) = some (encode i)
end

