-- ==== Sys2Proof/Laws/State.lean ====
section
/-! SUPPORT. One lemma per field of `State` and update, so that no later proof unfolds a record update. -/

namespace Sys2Proof.Machine

@[simp] theorem State.memWrite_memory (s : State) (a v : Byte) : (s.memWrite a v).memory = s.memory.write a.toNat v := rfl
@[simp] theorem State.memWrite_regs (s : State) (a v : Byte) : (s.memWrite a v).regs = s.regs := rfl
@[simp] theorem State.memWrite_pc (s : State) (a v : Byte) : (s.memWrite a v).pc = s.pc := rfl
@[simp] theorem State.memWrite_flags (s : State) (a v : Byte) : (s.memWrite a v).flags = s.flags := rfl
@[simp] theorem State.memWrite_running (s : State) (a v : Byte) : (s.memWrite a v).running = s.running := rfl
@[simp] theorem State.memWrite_fault (s : State) (a v : Byte) : (s.memWrite a v).fault = s.fault := rfl
@[simp] theorem State.memWrite_loaded (s : State) (a v : Byte) : (s.memWrite a v).loaded = s.loaded := rfl
@[simp] theorem State.memWrite_out (s : State) (a v : Byte) : (s.memWrite a v).out = s.out := rfl

@[simp] theorem State.setReg_memory (s : State) (r : RegIndex) (v : Byte) : (s.setReg r v).memory = s.memory := rfl
@[simp] theorem State.setReg_regs (s : State) (r : RegIndex) (v : Byte) : (s.setReg r v).regs = s.regs.set r.val v r.isLt := rfl
@[simp] theorem State.setReg_pc (s : State) (r : RegIndex) (v : Byte) : (s.setReg r v).pc = s.pc := rfl
@[simp] theorem State.setReg_flags (s : State) (r : RegIndex) (v : Byte) : (s.setReg r v).flags = s.flags := rfl
@[simp] theorem State.setReg_running (s : State) (r : RegIndex) (v : Byte) : (s.setReg r v).running = s.running := rfl
@[simp] theorem State.setReg_fault (s : State) (r : RegIndex) (v : Byte) : (s.setReg r v).fault = s.fault := rfl
@[simp] theorem State.setReg_loaded (s : State) (r : RegIndex) (v : Byte) : (s.setReg r v).loaded = s.loaded := rfl
@[simp] theorem State.setReg_out (s : State) (r : RegIndex) (v : Byte) : (s.setReg r v).out = s.out := rfl

@[simp] theorem State.setSp_memory (s : State) (v : Byte) : (s.setSp v).memory = s.memory := rfl
@[simp] theorem State.setSp_regs (s : State) (v : Byte) : (s.setSp v).regs = s.regs.set 7 v := rfl
@[simp] theorem State.setSp_pc (s : State) (v : Byte) : (s.setSp v).pc = s.pc := rfl
@[simp] theorem State.setSp_flags (s : State) (v : Byte) : (s.setSp v).flags = s.flags := rfl
@[simp] theorem State.setSp_running (s : State) (v : Byte) : (s.setSp v).running = s.running := rfl
@[simp] theorem State.setSp_fault (s : State) (v : Byte) : (s.setSp v).fault = s.fault := rfl
@[simp] theorem State.setSp_loaded (s : State) (v : Byte) : (s.setSp v).loaded = s.loaded := rfl
@[simp] theorem State.setSp_out (s : State) (v : Byte) : (s.setSp v).out = s.out := rfl

@[simp] theorem State.selectPc_memory (s : State) (sel : PcSelect) : (s.selectPc sel).memory = s.memory := rfl
@[simp] theorem State.selectPc_regs (s : State) (sel : PcSelect) : (s.selectPc sel).regs = s.regs := rfl
@[simp] theorem State.selectPc_pc (s : State) (sel : PcSelect) : (s.selectPc sel).pc = sel.next s.pc := rfl
@[simp] theorem State.selectPc_flags (s : State) (sel : PcSelect) : (s.selectPc sel).flags = s.flags := rfl
@[simp] theorem State.selectPc_running (s : State) (sel : PcSelect) : (s.selectPc sel).running = s.running := rfl
@[simp] theorem State.selectPc_fault (s : State) (sel : PcSelect) : (s.selectPc sel).fault = s.fault := rfl
@[simp] theorem State.selectPc_loaded (s : State) (sel : PcSelect) : (s.selectPc sel).loaded = s.loaded := rfl
@[simp] theorem State.selectPc_out (s : State) (sel : PcSelect) : (s.selectPc sel).out = s.out := rfl

@[simp] theorem State.setFlags_memory (s : State) (f : Flags) : (s.setFlags f).memory = s.memory := rfl
@[simp] theorem State.setFlags_regs (s : State) (f : Flags) : (s.setFlags f).regs = s.regs := rfl
@[simp] theorem State.setFlags_pc (s : State) (f : Flags) : (s.setFlags f).pc = s.pc := rfl
@[simp] theorem State.setFlags_flags (s : State) (f : Flags) : (s.setFlags f).flags = f := rfl
@[simp] theorem State.setFlags_running (s : State) (f : Flags) : (s.setFlags f).running = s.running := rfl
@[simp] theorem State.setFlags_fault (s : State) (f : Flags) : (s.setFlags f).fault = s.fault := rfl
@[simp] theorem State.setFlags_loaded (s : State) (f : Flags) : (s.setFlags f).loaded = s.loaded := rfl
@[simp] theorem State.setFlags_out (s : State) (f : Flags) : (s.setFlags f).out = s.out := rfl

@[simp] theorem State.emit_memory (s : State) (v : Byte) : (s.emit v).memory = s.memory := rfl
@[simp] theorem State.emit_regs (s : State) (v : Byte) : (s.emit v).regs = s.regs := rfl
@[simp] theorem State.emit_pc (s : State) (v : Byte) : (s.emit v).pc = s.pc := rfl
@[simp] theorem State.emit_flags (s : State) (v : Byte) : (s.emit v).flags = s.flags := rfl
@[simp] theorem State.emit_running (s : State) (v : Byte) : (s.emit v).running = s.running := rfl
@[simp] theorem State.emit_fault (s : State) (v : Byte) : (s.emit v).fault = s.fault := rfl
@[simp] theorem State.emit_loaded (s : State) (v : Byte) : (s.emit v).loaded = s.loaded := rfl
@[simp] theorem State.emit_out (s : State) (v : Byte) : (s.emit v).out = s.out ++ [v] := rfl

@[simp] theorem State.takeFault_memory (s : State) (c : FaultCause) : (s.takeFault c).memory = s.memory := rfl
@[simp] theorem State.takeFault_regs (s : State) (c : FaultCause) : (s.takeFault c).regs = s.regs := rfl
@[simp] theorem State.takeFault_pc (s : State) (c : FaultCause) : (s.takeFault c).pc = s.pc := rfl
@[simp] theorem State.takeFault_flags (s : State) (c : FaultCause) : (s.takeFault c).flags = s.flags := rfl
@[simp] theorem State.takeFault_running (s : State) (c : FaultCause) : (s.takeFault c).running = false := rfl
@[simp] theorem State.takeFault_fault (s : State) (c : FaultCause) : (s.takeFault c).fault = some ⟨c, s.pc⟩ := rfl
@[simp] theorem State.takeFault_loaded (s : State) (c : FaultCause) : (s.takeFault c).loaded = s.loaded := rfl
@[simp] theorem State.takeFault_out (s : State) (c : FaultCause) : (s.takeFault c).out = s.out := rfl

@[simp] theorem State.faulted_memory (s : State) (c : FaultCause) : (s.faulted c).memory = s.memory := rfl
@[simp] theorem State.faulted_regs (s : State) (c : FaultCause) : (s.faulted c).regs = s.regs := rfl
@[simp] theorem State.faulted_pc (s : State) (c : FaultCause) : (s.faulted c).pc = s.pc := rfl
@[simp] theorem State.faulted_flags (s : State) (c : FaultCause) : (s.faulted c).flags = s.flags := rfl
@[simp] theorem State.faulted_running (s : State) (c : FaultCause) : (s.faulted c).running = false := rfl
@[simp] theorem State.faulted_fault (s : State) (c : FaultCause) : (s.faulted c).fault = some ⟨c, s.pc⟩ := rfl
@[simp] theorem State.faulted_loaded (s : State) (c : FaultCause) : (s.faulted c).loaded = s.loaded := rfl
@[simp] theorem State.faulted_out (s : State) (c : FaultCause) : (s.faulted c).out = s.out := rfl

@[simp] theorem State.placeBytes_memory (s : State) (a : Nat) (bytes : List Byte) : (s.placeBytes a bytes).memory = s.memory.writeBytes a bytes := rfl
@[simp] theorem State.placeBytes_regs (s : State) (a : Nat) (bytes : List Byte) : (s.placeBytes a bytes).regs = s.regs := rfl
@[simp] theorem State.placeBytes_pc (s : State) (a : Nat) (bytes : List Byte) : (s.placeBytes a bytes).pc = s.pc := rfl
@[simp] theorem State.placeBytes_flags (s : State) (a : Nat) (bytes : List Byte) : (s.placeBytes a bytes).flags = s.flags := rfl
@[simp] theorem State.placeBytes_running (s : State) (a : Nat) (bytes : List Byte) : (s.placeBytes a bytes).running = s.running := rfl
@[simp] theorem State.placeBytes_fault (s : State) (a : Nat) (bytes : List Byte) : (s.placeBytes a bytes).fault = s.fault := rfl
@[simp] theorem State.placeBytes_loaded (s : State) (a : Nat) (bytes : List Byte) : (s.placeBytes a bytes).loaded = s.loaded := rfl
@[simp] theorem State.placeBytes_out (s : State) (a : Nat) (bytes : List Byte) : (s.placeBytes a bytes).out = s.out := rfl

/-- Taking a fault is exactly what R226 writes out. -/
@[simp] theorem State.takeFault_eq_faulted (s : State) (c : FaultCause) : s.takeFault c = s.faulted c := rfl

@[simp] theorem State.reg_setReg_same (s : State) (r : RegIndex) (v : Byte) : (s.setReg r v).reg r = v := by
  simp [State.reg]

@[simp] theorem State.reg_setReg_ne (s : State) {r q : RegIndex} (v : Byte) (h : r ≠ q) :
    (s.setReg r v).reg q = s.reg q := by
  have h' : r.val ≠ q.val := fun e => h (Fin.ext e)
  simp [State.reg, Vector.getElem_set_ne, h']

theorem State.reg_setReg (s : State) (r q : RegIndex) (v : Byte) :
    (s.setReg r v).reg q = if r = q then v else s.reg q := by
  by_cases h : r = q
  · subst h; simp
  · simp [h]

@[simp] theorem State.sp_setSp (s : State) (v : Byte) : (s.setSp v).sp = v := State.reg_setReg_same s _ v

@[simp] theorem State.reg_setSp_seven (s : State) (v : Byte) : (s.setSp v).reg 7 = v := State.reg_setReg_same s 7 v

theorem State.sp_eq_reg (s : State) : s.sp = s.reg 7 := rfl

@[simp] theorem State.reg_memWrite (s : State) (a v : Byte) (q : RegIndex) : (s.memWrite a v).reg q = s.reg q := rfl
@[simp] theorem State.sp_memWrite (s : State) (a v : Byte) : (s.memWrite a v).sp = s.sp := rfl
@[simp] theorem State.reg_selectPc (s : State) (sel : PcSelect) (q : RegIndex) : (s.selectPc sel).reg q = s.reg q := rfl
@[simp] theorem State.sp_selectPc (s : State) (sel : PcSelect) : (s.selectPc sel).sp = s.sp := rfl
@[simp] theorem State.reg_setFlags (s : State) (f : Flags) (q : RegIndex) : (s.setFlags f).reg q = s.reg q := rfl
@[simp] theorem State.sp_setFlags (s : State) (f : Flags) : (s.setFlags f).sp = s.sp := rfl
@[simp] theorem State.reg_emit (s : State) (v : Byte) (q : RegIndex) : (s.emit v).reg q = s.reg q := rfl
@[simp] theorem State.sp_emit (s : State) (v : Byte) : (s.emit v).sp = s.sp := rfl
@[simp] theorem State.reg_takeFault (s : State) (c : FaultCause) (q : RegIndex) : (s.takeFault c).reg q = s.reg q := rfl
@[simp] theorem State.sp_takeFault (s : State) (c : FaultCause) : (s.takeFault c).sp = s.sp := rfl
@[simp] theorem State.reg_faulted (s : State) (c : FaultCause) (q : RegIndex) : (s.faulted c).reg q = s.reg q := rfl
@[simp] theorem State.sp_faulted (s : State) (c : FaultCause) : (s.faulted c).sp = s.sp := rfl
@[simp] theorem State.reg_placeBytes (s : State) (a : Nat) (bytes : List Byte) (q : RegIndex) : (s.placeBytes a bytes).reg q = s.reg q := rfl
@[simp] theorem State.sp_placeBytes (s : State) (a : Nat) (bytes : List Byte) : (s.placeBytes a bytes).sp = s.sp := rfl
@[simp] theorem State.cell_setReg (s : State) (r : RegIndex) (v : Byte) (x : Nat) : (s.setReg r v).cell x = s.cell x := rfl
@[simp] theorem State.cell_setSp (s : State) (v : Byte) (x : Nat) : (s.setSp v).cell x = s.cell x := rfl
@[simp] theorem State.cell_selectPc (s : State) (sel : PcSelect) (x : Nat) : (s.selectPc sel).cell x = s.cell x := rfl
@[simp] theorem State.cell_setFlags (s : State) (f : Flags) (x : Nat) : (s.setFlags f).cell x = s.cell x := rfl
@[simp] theorem State.cell_emit (s : State) (v : Byte) (x : Nat) : (s.emit v).cell x = s.cell x := rfl
@[simp] theorem State.cell_takeFault (s : State) (c : FaultCause) (x : Nat) : (s.takeFault c).cell x = s.cell x := rfl
@[simp] theorem State.cell_faulted (s : State) (c : FaultCause) (x : Nat) : (s.faulted c).cell x = s.cell x := rfl

@[simp] theorem State.cell_memWrite (s : State) (a v : Byte) (x : Nat) :
    (s.memWrite a v).cell x = (s.memory.write a.toNat v).read x := rfl

end Sys2Proof.Machine
end

