-- ==== Sys2Proof/Laws/Memory.lean ====
section
/-! SUPPORT. The laws of memory: read after write, what a write leaves alone, and that every memory operation keeps the
canonical form, in which equal memories are equal data. -/

namespace Sys2Proof.Machine

@[simp] theorem Memory.read_nil (a : Nat) : Memory.read [] a = 0#8 := rfl

theorem Memory.wf_cons {b : Nat} {v : Byte} {m : Memory} :
    Memory.Wf ((b, v) :: m) ↔ b < 256 ∧ v ≠ 0#8 ∧ (∀ c ∈ m, b < c.1) ∧ Memory.Wf m := by
  simp only [Memory.Wf, List.pairwise_cons, List.mem_cons, forall_eq_or_imp, Config.memSize]
  tauto

/-- A cell below every listed address reads 0. -/
theorem Memory.read_below {m : Memory} {a : Nat} (h : ∀ c ∈ m, a < c.1) : m.read a = 0#8 := by
  induction m with
  | nil => rfl
  | cons c m ih =>
    have hc := h c (by simp)
    have hne : c.1 ≠ a := by omega
    simp only [Memory.read, if_neg hne]
    exact ih fun d hd => h d (by simp [hd])

/-- A write leaves every other cell alone (20_memory.md R66). -/
theorem Memory.read_write_ne (m : Memory) {a x : Nat} (v : Byte) (h : x ≠ a) :
    (m.write a v).read x = m.read x := by
  induction m with
  | nil =>
    simp only [Memory.write]
    split
    · rfl
    · simp [Memory.read, Ne.symm h]
  | cons c m ih =>
    obtain ⟨b, w⟩ := c
    simp only [Memory.write]
    split
    · split
      · rfl
      · simp [Memory.read, Ne.symm h]
    · split
      · next hab =>
        subst hab
        split
        · simp [Memory.read, Ne.symm h]
        · simp [Memory.read, Ne.symm h]
      · simp only [Memory.read, ih]

/-- A read after a write to the same cell gives the value written. -/
theorem Memory.read_write_same {m : Memory} (hm : Memory.Wf m) (a : Nat) (v : Byte) :
    (m.write a v).read a = v := by
  induction m with
  | nil =>
    simp only [Memory.write]
    split
    · next h => simp [h]
    · simp [Memory.read]
  | cons c m ih =>
    obtain ⟨b, w⟩ := c
    obtain ⟨-, -, hlt, hm'⟩ := Memory.wf_cons.mp hm
    simp only [Memory.write]
    split
    · next hab =>
      split
      · next hv =>
        rw [hv]
        refine Memory.read_below fun d hd => ?_
        rcases List.mem_cons.mp hd with rfl | hd
        · exact hab
        · exact Nat.lt_trans hab (hlt d hd)
      · simp [Memory.read]
    · split
      · next hab =>
        subst hab
        split
        · next hv => rw [hv]; exact Memory.read_below hlt
        · simp [Memory.read]
      · next hab =>
        simp only [Memory.read, if_neg (Ne.symm hab)]
        exact ih hm'

theorem Memory.read_write {m : Memory} (hm : Memory.Wf m) (a x : Nat) (v : Byte) :
    (m.write a v).read x = if x = a then v else m.read x := by
  split
  · next h => rw [h, Memory.read_write_same hm]
  · next h => exact Memory.read_write_ne m v h

/-- A listed address of a written memory is the written one or was listed before. -/
theorem Memory.mem_write {m : Memory} {a : Nat} {v : Byte} {c : Host.Cell} (h : c ∈ m.write a v) :
    c = (a, v) ∨ c ∈ m := by
  induction m with
  | nil =>
    simp only [Memory.write] at h
    split at h <;> simp_all
  | cons d m ih =>
    obtain ⟨b, w⟩ := d
    simp only [Memory.write] at h
    split at h
    · split at h
      · exact .inr h
      · rcases List.mem_cons.mp h with h | h
        · exact .inl h
        · exact .inr h
    · split at h
      · split at h
        · exact .inr (List.mem_cons_of_mem _ h)
        · rcases List.mem_cons.mp h with h | h
          · exact .inl h
          · exact .inr (List.mem_cons_of_mem _ h)
      · rcases List.mem_cons.mp h with h | h
        · exact .inr (by simp [h])
        · exact (ih h).imp id (List.mem_cons_of_mem _)

/-- A write inside the address space keeps the canonical form. -/
theorem Memory.wf_write {m : Memory} (hm : Memory.Wf m) {a : Nat} (ha : a < 256) (v : Byte) :
    Memory.Wf (m.write a v) := by
  induction m with
  | nil =>
    simp only [Memory.write]
    split
    · exact hm
    · next hv => exact Memory.wf_cons.mpr ⟨ha, hv, by simp, hm⟩
  | cons c m ih =>
    obtain ⟨b, w⟩ := c
    have hm0 := hm
    obtain ⟨hb, hw, hlt, hm'⟩ := Memory.wf_cons.mp hm
    simp only [Memory.write]
    split
    · next hab =>
      split
      · exact hm0
      · next hv =>
        refine Memory.wf_cons.mpr ⟨ha, hv, fun d hd => ?_, hm0⟩
        rcases List.mem_cons.mp hd with rfl | hd
        · exact hab
        · exact Nat.lt_trans hab (hlt d hd)
    · split
      · next hab =>
        subst hab
        split
        · exact hm'
        · next hv => exact Memory.wf_cons.mpr ⟨ha, hv, hlt, hm'⟩
      · next h1 h2 =>
        refine Memory.wf_cons.mpr ⟨hb, hw, fun d hd => ?_, ih hm'⟩
        rcases Memory.mem_write hd with rfl | hd
        · show b < a
          omega
        · exact hlt d hd

/-- Placing bytes inside the address space keeps the canonical form. -/
theorem Memory.wf_writeBytes {m : Memory} (hm : Memory.Wf m) {a : Nat} {bytes : List Byte}
    (h : a + bytes.length ≤ 256) : Memory.Wf (m.writeBytes a bytes) := by
  induction bytes generalizing m a with
  | nil => exact hm
  | cons v rest ih =>
    simp only [List.length_cons] at h
    exact ih (Memory.wf_write hm (by omega) v) (by omega)

/-- Placing bytes leaves the cells outside them alone. -/
theorem Memory.read_writeBytes_outside (m : Memory) {a x : Nat} {bytes : List Byte}
    (h : x < a ∨ a + bytes.length ≤ x) : (m.writeBytes a bytes).read x = m.read x := by
  induction bytes generalizing m a with
  | nil => rfl
  | cons v rest ih =>
    simp only [List.length_cons] at h
    simp only [Memory.writeBytes]
    rw [ih _ (by omega), Memory.read_write_ne _ _ (by omega)]

/-- In canonical form, memories that read alike everywhere are the same data. -/
theorem Memory.ext_of_read {m n : Memory} (hm : Memory.Wf m) (hn : Memory.Wf n)
    (h : ∀ a, m.read a = n.read a) : m = n := by
  induction m generalizing n with
  | nil =>
    cases n with
    | nil => rfl
    | cons d n =>
      obtain ⟨b, w⟩ := d
      obtain ⟨-, hw, -, -⟩ := Memory.wf_cons.mp hn
      exact absurd (h b).symm (by simpa [Memory.read] using hw)
  | cons c m ih =>
    obtain ⟨a, v⟩ := c
    obtain ⟨-, hv, hlt, hm'⟩ := Memory.wf_cons.mp hm
    cases n with
    | nil => exact absurd (h a) (by simpa [Memory.read] using hv)
    | cons d n =>
      obtain ⟨b, w⟩ := d
      obtain ⟨-, hw, hlt', hn'⟩ := Memory.wf_cons.mp hn
      have hab : a = b := by
        rcases Nat.lt_trichotomy a b with hab | hab | hab
        · refine absurd (h a) ?_
          have : Memory.read ((b, w) :: n) a = 0#8 := Memory.read_below fun d hd => by
            rcases List.mem_cons.mp hd with rfl | hd
            · exact hab
            · exact Nat.lt_trans hab (hlt' d hd)
          rw [this]
          simpa [Memory.read] using hv
        · exact hab
        · refine absurd (h b).symm ?_
          have : Memory.read ((a, v) :: m) b = 0#8 := Memory.read_below fun d hd => by
            rcases List.mem_cons.mp hd with rfl | hd
            · exact hab
            · exact Nat.lt_trans hab (hlt d hd)
          rw [this]
          simpa [Memory.read] using hw
      subst hab
      have hvw : v = w := by simpa [Memory.read] using h a
      subst hvw
      congr 1
      refine ih hm' hn' fun x => ?_
      by_cases hx : a = x
      · subst hx
        rw [Memory.read_below hlt, Memory.read_below hlt']
      · simpa [Memory.read, hx] using h x

theorem State.reset_memory_wf : Memory.Wf State.reset.memory := by decide

end Sys2Proof.Machine
end

