-- ==== Sys2Proof/Laws/Ops.lean ====
section
/-! SUPPORT. One lemma per shared operation that says everything it can do. -/

namespace Sys2Proof

/-- The literal match of R85: a byte decodes to a tag exactly when it is that tag's byte. -/
theorem decodeOpcode_eq_some {op : Byte} {o : Opcode} : decodeOpcode op = some o ↔ op = o.byte := by
  revert op
  cases o <;> decide

@[simp] theorem decodeOpcode_byte (o : Opcode) : decodeOpcode o.byte = some o := decodeOpcode_eq_some.mpr rfl

theorem decodeOpcode_eq_none {op : Byte} : decodeOpcode op = none ↔ ∀ o : Opcode, op ≠ o.byte := by
  rw [Option.eq_none_iff_forall_ne_some]
  exact forall_congr' fun o => not_congr decodeOpcode_eq_some

end Sys2Proof

namespace Sys2Proof.Machine

theorem regIdx_of_lt {b : Byte} (h : b.toNat < 8) : regIdx b = .ok ⟨b.toNat, h⟩ := by simp [regIdx, h]

theorem regIdx_of_ge {b : Byte} (h : 8 ≤ b.toNat) : regIdx b = .error (.outOfBounds .registerIndex b.toNat) := by
  simp [regIdx, Nat.not_lt.mpr h]

/-- `RegIdx` answers the byte itself or raises (00_scope.md R15). -/
theorem regIdx_cases (b : Byte) :
    (∃ h : b.toNat < 8, regIdx b = .ok ⟨b.toNat, h⟩) ∨
      (8 ≤ b.toNat ∧ regIdx b = .error (.outOfBounds .registerIndex b.toNat)) := by
  rcases Nat.lt_or_ge b.toNat 8 with h | h
  · exact .inl ⟨h, regIdx_of_lt h⟩
  · exact .inr ⟨h, regIdx_of_ge h⟩

theorem regPair_of_lt {a b : Byte} (ha : a.toNat < 8) (hb : b.toNat < 8) :
    regPair a b = .ok (⟨a.toNat, ha⟩, ⟨b.toNat, hb⟩) := by
  simp [regPair, regIdx_of_lt ha, regIdx_of_lt hb, bind, Except.bind]

theorem regPair_of_ge_left {a : Byte} (b : Byte) (ha : 8 ≤ a.toNat) :
    regPair a b = .error (.outOfBounds .registerIndex a.toNat) := by
  simp [regPair, regIdx_of_ge ha, bind, Except.bind]

theorem regPair_of_ge_right {a b : Byte} (ha : a.toNat < 8) (hb : 8 ≤ b.toNat) :
    regPair a b = .error (.outOfBounds .registerIndex b.toNat) := by
  simp [regPair, regIdx_of_lt ha, regIdx_of_ge hb, bind, Except.bind]

/-- Both register bytes name registers, or the first that does not is raised (40_engine.md R122). -/
theorem regPair_cases (a b : Byte) :
    (∃ (ha : a.toNat < 8) (hb : b.toNat < 8), regPair a b = .ok (⟨a.toNat, ha⟩, ⟨b.toNat, hb⟩)) ∨
      (8 ≤ a.toNat ∧ regPair a b = .error (.outOfBounds .registerIndex a.toNat)) ∨
      (a.toNat < 8 ∧ 8 ≤ b.toNat ∧ regPair a b = .error (.outOfBounds .registerIndex b.toNat)) := by
  rcases Nat.lt_or_ge a.toNat 8 with ha | ha
  · rcases Nat.lt_or_ge b.toNat 8 with hb | hb
    · exact .inl ⟨ha, hb, regPair_of_lt ha hb⟩
    · exact .inr (.inr ⟨ha, hb, regPair_of_ge_right ha hb⟩)
  · exact .inr (.inl ⟨ha, regPair_of_ge_left b ha⟩)

@[simp] theorem immediate_eq (imm : Byte) : immediate imm = imm := rfl

theorem spDec_zero : spDec 0#8 = .error (.outOfBounds .spDecrement 0) := rfl

theorem spDec_of_ne {sp : Byte} (h : sp ≠ 0#8) : spDec sp = .ok (sp - 1#8) := by simp [spDec, h]

theorem spInc_top : spInc 255#8 = .error (.outOfBounds .spIncrement 255) := rfl

theorem spInc_of_ne {sp : Byte} (h : sp ≠ 255#8) : spInc sp = .ok (sp + 1#8) := by simp [spInc, h]

/-- Committing a handler answers its state, or the fault it raised. -/
theorem commit_eq_next {s t : State} {h : Except FaultCause State} (e : s.commit h = .next t) :
    h = .ok t ∨ ∃ c, h = .error c ∧ t = s.faulted c := by
  cases h with
  | ok u => cases e; exact .inl rfl
  | error c => cases e; exact .inr ⟨c, rfl, rfl⟩

/-- Committing a handler always answers a next state. -/
theorem commit_next (s : State) (h : Except FaultCause State) : ∃ t, s.commit h = .next t := by
  cases h <;> exact ⟨_, rfl⟩

@[simp] theorem commit_ok (s t : State) : s.commit (.ok t) = .next t := rfl

@[simp] theorem commit_error (s : State) (c : FaultCause) : s.commit (.error c) = .next (s.faulted c) := rfl

theorem memRead_of_lt (s : State) (sub : BoundsKind) {a : Nat} (h : a < 256) : s.memRead sub a = .ok (s.cell a) := by
  simp [State.memRead, h]

theorem memRead_of_ge (s : State) (sub : BoundsKind) {a : Nat} (h : 256 ≤ a) :
    s.memRead sub a = .error (.outOfBounds sub a) := by
  simp [State.memRead, Nat.not_lt.mpr h]

/-- Fetching at a `pc` past the end (40_engine.md R119). -/
theorem fetch_past_end {s : State} (h : 256 ≤ s.pc.toNat) :
    fetch s = .error (.outOfBounds .fetchAddress s.pc.toNat) := by
  simp [fetch, fetchOpcode, memRead_of_ge s _ h, bind, Except.bind]

/-- Fetching an undefined opcode (R120). -/
theorem fetch_unknown {s : State} (h : s.pc.toNat < 256) (hd : decodeOpcode (s.cell s.pc.toNat) = none) :
    fetch s = .error (.unknownOpcode (s.cell s.pc.toNat)) := by
  simp [fetch, fetchOpcode, memRead_of_lt s _ h, hd, bind, Except.bind]

/-- Fetching a defined opcode is fetching its operands (R121). -/
theorem fetch_known {s : State} {o : Opcode} (h : s.pc.toNat < 256) (hd : decodeOpcode (s.cell s.pc.toNat) = some o) :
    fetch s = (fetchOperands s o.format).map fun p => o.assemble p.1 p.2 := by
  simp only [fetch, fetchOpcode, memRead_of_lt s _ h, hd, bind, Except.bind]
  cases fetchOperands s o.format <;> rfl

/-- What fetching operands answers: the bytes after the opcode, or the first address past the end. -/
theorem fetchOperands_eq (s : State) (f : Format) :
    fetchOperands s f =
      if 1 ≤ f.operandCount ∧ 256 ≤ s.pc.toNat + 1 then .error (.outOfBounds .operandAddress (s.pc.toNat + 1))
      else if 2 ≤ f.operandCount ∧ 256 ≤ s.pc.toNat + 2 then .error (.outOfBounds .operandAddress (s.pc.toNat + 2))
      else .ok (if 1 ≤ f.operandCount then s.cell (s.pc.toNat + 1) else 0#8,
        if 2 ≤ f.operandCount then s.cell (s.pc.toNat + 2) else 0#8) := by
  rcases Nat.lt_or_ge (s.pc.toNat + 1) 256 with h1 | h1 <;> rcases Nat.lt_or_ge (s.pc.toNat + 2) 256 with h2 | h2 <;>
    cases f <;>
    simp [fetchOperands, fetchOperand, Format.operandCount, memRead_of_lt, memRead_of_ge, bind, Except.bind, h1, h2,
      Nat.not_le.mpr]

theorem step_running {s : State} (h : s.running = true) :
    step s = match fetch s with
      | .ok i => exec i s
      | .error c => .next (s.faulted c) := by
  unfold step
  rw [if_pos h]
  cases fetch s <;> rfl

theorem step_of_fetch_ok {s : State} {i : Instr} (h : s.running = true) (hf : fetch s = .ok i) : step s = exec i s := by
  rw [step_running h, hf]

theorem step_of_fetch_error {s : State} {c : FaultCause} (h : s.running = true) (hf : fetch s = .error c) :
    step s = .next (s.faulted c) := by
  rw [step_running h, hf]

/-- Everything a step that answers a next state can be: the engine is Running, and either the fetched instruction ran
or the fetch raised. -/
theorem step_eq_next {s t : State} (h : step s = .next t) :
    s.running = true ∧ ((∃ i, fetch s = .ok i ∧ exec i s = .next t) ∨ ∃ c, fetch s = .error c ∧ t = s.faulted c) := by
  cases hr : s.running with
  | false =>
    simp only [step, hr] at h
    cases hf : s.fault <;> simp [hf] at h
  | true =>
    refine ⟨rfl, ?_⟩
    rw [step_running hr] at h
    cases hf : fetch s with
    | ok i => rw [hf] at h; exact .inl ⟨i, rfl, h⟩
    | error c => rw [hf] at h; cases h; exact .inr ⟨c, rfl, rfl⟩

end Sys2Proof.Machine
end

