-- ==== Sys2Proof/Laws/Exec.lean ====
section
/-! SUPPORT. One inversion lemma per instruction: everything its handler can do, the faults it can take with their
conditions included. Later proofs cite these and never unfold a handler. -/

namespace Sys2Proof.Machine

variable {s t : State}

theorem execHlt_cases (e : execHlt s = .next t) : t = { s with running := false }.selectPc .zero := by
  cases e; rfl

theorem execLdi_cases {r imm : Byte} (e : execLdi r imm s = .next t) :
    (∃ h : r.toNat < 8, t = (s.setReg ⟨r.toNat, h⟩ imm).selectPc (.seq 3)) ∨
      (8 ≤ r.toNat ∧ t = s.faulted (.outOfBounds .registerIndex r.toNat)) := by
  unfold execLdi at e
  rcases regIdx_cases r with ⟨h, hr⟩ | ⟨h, hr⟩ <;> rw [hr] at e <;> cases e
  · exact .inl ⟨h, rfl⟩
  · exact .inr ⟨h, rfl⟩

theorem execPrn_cases {r : Byte} (e : execPrn r s = .next t) :
    (∃ h : r.toNat < 8, t = (s.emit (s.reg ⟨r.toNat, h⟩)).selectPc (.seq 2)) ∨
      (8 ≤ r.toNat ∧ t = s.faulted (.outOfBounds .registerIndex r.toNat)) := by
  unfold execPrn at e
  rcases regIdx_cases r with ⟨h, hr⟩ | ⟨h, hr⟩ <;> rw [hr] at e <;> cases e
  · exact .inl ⟨h, rfl⟩
  · exact .inr ⟨h, rfl⟩

theorem execMul_cases {a b : Byte} (e : execMul a b s = .next t) :
    (∃ (ha : a.toNat < 8) (hb : b.toNat < 8), t = (s.setReg ⟨a.toNat, ha⟩
        (narrow ((s.reg ⟨a.toNat, ha⟩).toNat * (s.reg ⟨b.toNat, hb⟩).toNat))).selectPc (.seq 3)) ∨
      (8 ≤ a.toNat ∧ t = s.faulted (.outOfBounds .registerIndex a.toNat)) ∨
      (a.toNat < 8 ∧ 8 ≤ b.toNat ∧ t = s.faulted (.outOfBounds .registerIndex b.toNat)) := by
  unfold execMul at e
  rcases regPair_cases a b with ⟨ha, hb, hr⟩ | ⟨h, hr⟩ | ⟨ha, hb, hr⟩ <;> rw [hr] at e <;> cases e
  · exact .inl ⟨ha, hb, rfl⟩
  · exact .inr (.inl ⟨h, rfl⟩)
  · exact .inr (.inr ⟨ha, hb, rfl⟩)

theorem execAdd_cases {a b : Byte} (e : execAdd a b s = .next t) :
    (∃ (ha : a.toNat < 8) (hb : b.toNat < 8), t = (s.setReg ⟨a.toNat, ha⟩
        (narrow ((s.reg ⟨a.toNat, ha⟩).toNat + (s.reg ⟨b.toNat, hb⟩).toNat))).selectPc (.seq 3)) ∨
      (8 ≤ a.toNat ∧ t = s.faulted (.outOfBounds .registerIndex a.toNat)) ∨
      (a.toNat < 8 ∧ 8 ≤ b.toNat ∧ t = s.faulted (.outOfBounds .registerIndex b.toNat)) := by
  unfold execAdd at e
  rcases regPair_cases a b with ⟨ha, hb, hr⟩ | ⟨h, hr⟩ | ⟨ha, hb, hr⟩ <;> rw [hr] at e <;> cases e
  · exact .inl ⟨ha, hb, rfl⟩
  · exact .inr (.inl ⟨h, rfl⟩)
  · exact .inr (.inr ⟨ha, hb, rfl⟩)

theorem execCmp_cases {a b : Byte} (e : execCmp a b s = .next t) :
    (∃ (ha : a.toNat < 8) (hb : b.toNat < 8),
        t = (s.setFlags (compareFlags (s.reg ⟨a.toNat, ha⟩) (s.reg ⟨b.toNat, hb⟩))).selectPc (.seq 3)) ∨
      (8 ≤ a.toNat ∧ t = s.faulted (.outOfBounds .registerIndex a.toNat)) ∨
      (a.toNat < 8 ∧ 8 ≤ b.toNat ∧ t = s.faulted (.outOfBounds .registerIndex b.toNat)) := by
  unfold execCmp at e
  rcases regPair_cases a b with ⟨ha, hb, hr⟩ | ⟨h, hr⟩ | ⟨ha, hb, hr⟩ <;> rw [hr] at e <;> cases e
  · exact .inl ⟨ha, hb, rfl⟩
  · exact .inr (.inl ⟨h, rfl⟩)
  · exact .inr (.inr ⟨ha, hb, rfl⟩)

theorem execPush_cases {r : Byte} (e : execPush r s = .next t) :
    (∃ h : r.toNat < 8, s.sp ≠ 0#8 ∧
        t = ((s.setSp (s.sp - 1#8)).memWrite (s.sp - 1#8) ((s.setSp (s.sp - 1#8)).reg ⟨r.toNat, h⟩)).selectPc
          (.seq 2)) ∨
      (8 ≤ r.toNat ∧ t = s.faulted (.outOfBounds .registerIndex r.toNat)) ∨
      (r.toNat < 8 ∧ s.sp = 0#8 ∧ t = s.faulted (.outOfBounds .spDecrement 0)) := by
  unfold execPush at e
  rcases regIdx_cases r with ⟨h, hr⟩ | ⟨h, hr⟩ <;> rw [hr] at e
  · by_cases hs : s.sp = 0#8
    · rw [hs, spDec_zero] at e
      cases e
      exact .inr (.inr ⟨h, hs, rfl⟩)
    · rw [spDec_of_ne hs] at e
      cases e
      exact .inl ⟨h, hs, rfl⟩
  · cases e
    exact .inr (.inl ⟨h, rfl⟩)

theorem execPop_cases {r : Byte} (e : execPop r s = .next t) :
    (∃ h : r.toNat < 8, r.toNat ≠ 7 ∧ s.sp ≠ 255#8 ∧
        t = ((s.setReg ⟨r.toNat, h⟩ (s.cell s.sp.toNat)).setSp (s.sp + 1#8)).selectPc (.seq 2)) ∨
      (r.toNat = 7 ∧ s.cell s.sp.toNat ≠ 255#8 ∧
        t = (s.setSp (s.cell s.sp.toNat + 1#8)).selectPc (.seq 2)) ∨
      (8 ≤ r.toNat ∧ t = s.faulted (.outOfBounds .registerIndex r.toNat)) ∨
      (r.toNat < 7 ∧ s.sp = 255#8 ∧ t = s.faulted (.outOfBounds .spIncrement 255)) ∨
      (r.toNat = 7 ∧ s.cell s.sp.toNat = 255#8 ∧ t = s.faulted (.outOfBounds .spIncrement 255)) := by
  unfold execPop at e
  rcases regIdx_cases r with ⟨h, hr⟩ | ⟨h, hr⟩ <;> rw [hr] at e
  · simp only [bind, Except.bind, Config.spIndex] at e
    by_cases h7 : r.toNat = 7
    · rw [if_pos (Fin.ext h7)] at e
      by_cases hv : s.cell s.sp.toNat = 255#8
      · rw [hv, spInc_top] at e
        cases e
        exact .inr (.inr (.inr (.inr ⟨h7, hv, rfl⟩)))
      · rw [spInc_of_ne hv] at e
        cases e
        exact .inr (.inl ⟨h7, hv, rfl⟩)
    · rw [if_neg (fun hh => h7 (congrArg Fin.val hh))] at e
      by_cases hs : s.sp = 255#8
      · rw [hs, spInc_top] at e
        cases e
        exact .inr (.inr (.inr (.inl ⟨by omega, hs, rfl⟩)))
      · rw [spInc_of_ne hs] at e
        cases e
        exact .inl ⟨h, h7, hs, rfl⟩
  · cases e
    exact .inr (.inr (.inl ⟨h, rfl⟩))

theorem execCall_cases {r : Byte} (e : execCall r s = .next t) :
    (∃ h : r.toNat < 8, s.sp ≠ 0#8 ∧ s.pc.toNat + 2 < 256 ∧
        t = ((s.setSp (s.sp - 1#8)).memWrite (s.sp - 1#8) (narrow (s.pc.toNat + 2))).selectPc
          (.target ((s.setSp (s.sp - 1#8)).reg ⟨r.toNat, h⟩))) ∨
      (8 ≤ r.toNat ∧ t = s.faulted (.outOfBounds .registerIndex r.toNat)) ∨
      (r.toNat < 8 ∧ s.sp = 0#8 ∧ t = s.faulted (.outOfBounds .spDecrement 0)) ∨
      (r.toNat < 8 ∧ s.sp ≠ 0#8 ∧ 256 ≤ s.pc.toNat + 2 ∧
        t = s.faulted (.outOfBounds .returnAddress (s.pc.toNat + 2))) := by
  unfold execCall at e
  rcases regIdx_cases r with ⟨h, hr⟩ | ⟨h, hr⟩ <;> rw [hr] at e
  · by_cases hs : s.sp = 0#8
    · rw [hs, spDec_zero] at e
      cases e
      exact .inr (.inr (.inl ⟨h, hs, rfl⟩))
    · rw [spDec_of_ne hs] at e
      simp only [bind, Except.bind, Config.memSize] at e
      by_cases hp : 256 ≤ s.pc.toNat + 2
      · rw [if_pos hp] at e
        cases e
        exact .inr (.inr (.inr ⟨h, hs, hp, rfl⟩))
      · rw [if_neg hp] at e
        cases e
        exact .inl ⟨h, hs, by omega, rfl⟩
  · cases e
    exact .inr (.inl ⟨h, rfl⟩)

theorem execRet_cases (e : execRet s = .next t) :
    (s.sp ≠ 255#8 ∧ t = (s.setSp (s.sp + 1#8)).selectPc (.target (s.cell s.sp.toNat))) ∨
      (s.sp = 255#8 ∧ t = s.faulted (.outOfBounds .spIncrement 255)) := by
  unfold execRet at e
  by_cases hs : s.sp = 255#8
  · rw [hs, spInc_top] at e
    cases e
    exact .inr ⟨hs, rfl⟩
  · rw [spInc_of_ne hs] at e
    cases e
    exact .inl ⟨hs, rfl⟩

theorem execJmp_cases {r : Byte} (e : execJmp r s = .next t) :
    (∃ h : r.toNat < 8, t = s.selectPc (.target (s.reg ⟨r.toNat, h⟩))) ∨
      (8 ≤ r.toNat ∧ t = s.faulted (.outOfBounds .registerIndex r.toNat)) := by
  unfold execJmp at e
  rcases regIdx_cases r with ⟨h, hr⟩ | ⟨h, hr⟩ <;> rw [hr] at e <;> cases e
  · exact .inl ⟨h, rfl⟩
  · exact .inr ⟨h, rfl⟩

theorem execJeq_cases {r : Byte} (e : execJeq r s = .next t) :
    (∃ h : r.toNat < 8, t = s.selectPc (branchSelect s.flags.e (s.reg ⟨r.toNat, h⟩))) ∨
      (8 ≤ r.toNat ∧ t = s.faulted (.outOfBounds .registerIndex r.toNat)) := by
  unfold execJeq at e
  rcases regIdx_cases r with ⟨h, hr⟩ | ⟨h, hr⟩ <;> rw [hr] at e <;> cases e
  · exact .inl ⟨h, rfl⟩
  · exact .inr ⟨h, rfl⟩

theorem execJne_cases {r : Byte} (e : execJne r s = .next t) :
    (∃ h : r.toNat < 8, t = s.selectPc (branchSelect (!s.flags.e) (s.reg ⟨r.toNat, h⟩))) ∨
      (8 ≤ r.toNat ∧ t = s.faulted (.outOfBounds .registerIndex r.toNat)) := by
  unfold execJne at e
  rcases regIdx_cases r with ⟨h, hr⟩ | ⟨h, hr⟩ <;> rw [hr] at e <;> cases e
  · exact .inl ⟨h, rfl⟩
  · exact .inr ⟨h, rfl⟩

end Sys2Proof.Machine
end

