-- ==== Sys2Proof/Laws/PerInstr.lean ====
section
/-! SUPPORT. What holds of every instruction as syntax, made one constructor at a time. -/

namespace Sys2Proof.Laws.EncodeShape

/-- The encoding starts with the opcode byte, has the table's length, and the opcode byte decodes to its tag
(30_encoding.md R80, R86, R87). -/
def Statement (i : Instr) : Prop :=
  (encode i).head? = some i.opcode.byte ∧ (encode i).length = i.opcode.length ∧
    decodeOpcode i.opcode.byte = some i.opcode

theorem hlt : Statement .hlt := ⟨rfl, rfl, by decide⟩
theorem ldi (r imm : Byte) : Statement (.ldi r imm) := ⟨rfl, rfl, by simp [Instr.opcode, Opcode.byte, decodeOpcode]⟩
theorem prn (r : Byte) : Statement (.prn r) := ⟨rfl, rfl, by simp [Instr.opcode, Opcode.byte, decodeOpcode]⟩
theorem mul (a b : Byte) : Statement (.mul a b) := ⟨rfl, rfl, by simp [Instr.opcode, Opcode.byte, decodeOpcode]⟩
theorem push (r : Byte) : Statement (.push r) := ⟨rfl, rfl, by simp [Instr.opcode, Opcode.byte, decodeOpcode]⟩
theorem pop (r : Byte) : Statement (.pop r) := ⟨rfl, rfl, by simp [Instr.opcode, Opcode.byte, decodeOpcode]⟩
theorem call (r : Byte) : Statement (.call r) := ⟨rfl, rfl, by simp [Instr.opcode, Opcode.byte, decodeOpcode]⟩
theorem ret : Statement .ret := ⟨rfl, rfl, by decide⟩
theorem add (a b : Byte) : Statement (.add a b) := ⟨rfl, rfl, by simp [Instr.opcode, Opcode.byte, decodeOpcode]⟩
theorem cmp (a b : Byte) : Statement (.cmp a b) := ⟨rfl, rfl, by simp [Instr.opcode, Opcode.byte, decodeOpcode]⟩
theorem jmp (r : Byte) : Statement (.jmp r) := ⟨rfl, rfl, by simp [Instr.opcode, Opcode.byte, decodeOpcode]⟩
theorem jne (r : Byte) : Statement (.jne r) := ⟨rfl, rfl, by simp [Instr.opcode, Opcode.byte, decodeOpcode]⟩
theorem jeq (r : Byte) : Statement (.jeq r) := ⟨rfl, rfl, by simp [Instr.opcode, Opcode.byte, decodeOpcode]⟩

end Sys2Proof.Laws.EncodeShape
end

