-- ==== Sys2Proof/Tests/Slice0.lean ====
section
/-! SUPPORT. The model's own tests. Expected results are the spec's: its encodings (30_encoding.md R86), its worked
examples and its derived vectors (95_test_vectors.md, named in each comment). The `witness_` theorems show, for each
statement with hypotheses, states and operands that meet them together, at the boundaries of each clause. -/

namespace Sys2Proof.Tests

open Sys2Proof Sys2Proof.Machine

/-- A Running engine with bytes at `pc` and the reset registers. -/
def at_ (pc : Nat) (bytes : List Byte) : State :=
  { State.reset.placeBytes pc bytes with pc := BitVec.ofNat 9 pc, running := true, loaded := true }

/-- The state a step answers. -/
def after (s : State) : Option State :=
  match step s with
  | .next t => some t
  | .fault _ => none
  | .refused _ => none

/-- Fault kind, pc and detail, as 95_test_vectors.md writes them, where the detail is a number. -/
def faultOf (s : State) : Nat × Nat × Nat × Nat :=
  match s.hostStatus.detail with
  | (sub, .number v) => (s.hostStatus.kind, s.hostStatus.pc, sub, v)
  | (sub, .tag _) => (s.hostStatus.kind, s.hostStatus.pc, sub, 0)

/-! Well-formedness: one ill-formed term for each check. -/

theorem test_wf_ldi_register : Instr.WellFormed (.ldi 8#8 0#8) = false := by decide
theorem test_wf_prn_register : Instr.WellFormed (.prn 255#8) = false := by decide
theorem test_wf_mul_registers : Instr.WellFormed (.mul 8#8 0#8) = false ∧ Instr.WellFormed (.mul 0#8 8#8) = false := by
  decide
theorem test_wf_push_register : Instr.WellFormed (.push 8#8) = false := by decide
theorem test_wf_pop_register : Instr.WellFormed (.pop 8#8) = false := by decide
theorem test_wf_call_register : Instr.WellFormed (.call 8#8) = false := by decide
theorem test_wf_add_registers : Instr.WellFormed (.add 9#8 8#8) = false ∧ Instr.WellFormed (.add 0#8 9#8) = false := by
  decide
theorem test_wf_cmp_registers : Instr.WellFormed (.cmp 8#8 1#8) = false ∧ Instr.WellFormed (.cmp 1#8 8#8) = false := by
  decide
theorem test_wf_jumps_register : Instr.WellFormed (.jmp 8#8) = false ∧ Instr.WellFormed (.jne 128#8) = false ∧
    Instr.WellFormed (.jeq 200#8) = false := by decide
theorem test_wf_accepts_any_immediate : Instr.WellFormed (.ldi 7#8 255#8) = true := by decide

/-! Decoding: R86's binary column and R81's formats, written out bit by bit. -/

theorem test_decode_hlt : decode [0b00000001#8] = .ok (.hlt, []) := rfl
theorem test_decode_ldi : decode [0b10000010#8, 0b00000000#8, 0b00001000#8] = .ok (.ldi 0#8 8#8, []) := rfl
theorem test_decode_prn : decode [0b01000111#8, 0b00000000#8] = .ok (.prn 0#8, []) := rfl
theorem test_decode_mul : decode [0b10100010#8, 0b00000000#8, 0b00000001#8] = .ok (.mul 0#8 1#8, []) := rfl
theorem test_decode_push : decode [0b01000101#8, 0b00000001#8] = .ok (.push 1#8, []) := rfl
theorem test_decode_pop : decode [0b01000110#8, 0b00000010#8] = .ok (.pop 2#8, []) := rfl
theorem test_decode_call : decode [0b01010000#8, 0b00000001#8] = .ok (.call 1#8, []) := rfl
theorem test_decode_ret : decode [0b00010001#8] = .ok (.ret, []) := rfl
theorem test_decode_add : decode [0b10100000#8, 0b00000000#8, 0b00000001#8] = .ok (.add 0#8 1#8, []) := rfl
theorem test_decode_cmp : decode [0b10100111#8, 0b00000000#8, 0b00000001#8] = .ok (.cmp 0#8 1#8, []) := rfl
theorem test_decode_jmp : decode [0b01010100#8, 0b00000010#8] = .ok (.jmp 2#8, []) := rfl
theorem test_decode_jne : decode [0b01010110#8, 0b00000011#8] = .ok (.jne 3#8, []) := rfl
theorem test_decode_jeq : decode [0b01010101#8, 0b00000011#8] = .ok (.jeq 3#8, []) := rfl

/-- A later byte's bits count on from the first's: LDI R5, 8 as one number. -/
theorem test_decode_table_word : decodeTableWord 24 0x080582 = some (.ldi 5#8 8#8) := by decide
/-- Bits above `nbits` are 0. -/
theorem test_decode_table_word_short : decodeTableWord 8 0xFFFF82 = some (.ldi 0#8 0#8) := by decide
/-- V-UNK-2: 0xBF is not decoded by its bit pattern. -/
theorem test_decode_undefined : decode [0xBF#8, 0#8, 0#8] = .error (.unknownOpcode 0xBF#8) := rfl
theorem test_decode_truncated : decode [0x82#8, 0#8] = .error (.missingOperand 2) := rfl
theorem test_decode_empty : decode [] = .error .noOpcode := rfl

/-! One step, from the vectors of 95_test_vectors.md. -/

/-- V-HLT-2. -/
theorem test_hlt_at_end : (after ((at_ 255 [0x01#8]).setReg 0 5#8)).map
    (fun t => (t.running, t.pc, t.reg 0, t.fault)) = some (false, 0#9, 5#8, none) := by decide
/-- V-LDI-6. -/
theorem test_ldi_to_end : (after (at_ 253 [0x82#8, 3#8, 0xFF#8])).map
    (fun t => (t.running, t.pc, t.reg 3)) = some (true, 256#9, 255#8) := by decide
/-- V-LDI-3. -/
theorem test_ldi_bad_register : (after (at_ 0 [0x82#8, 8#8, 1#8])).map faultOf = some (2, 0, 3, 8) := by decide
/-- V-PRN-1. -/
theorem test_prn_emits : (after ((at_ 9 [0x47#8, 0#8]).setReg 0 72#8)).map
    (fun t => (t.running, t.pc, t.out)) = some (true, 11#9, [72#8]) := by decide
/-- V-PRN-3. -/
theorem test_prn_bad_register : (after (at_ 0 [0x47#8, 0xFF#8])).map
    (fun t => (faultOf t, t.out)) = some ((2, 0, 3, 255), []) := by decide
/-- V-ADD-1. -/
theorem test_add_wraps : (after (((at_ 0 [0xA0#8, 0#8, 1#8]).setReg 0 200#8).setReg 1 100#8)).map
    (fun t => (t.pc, t.reg 0, t.reg 1)) = some (3#9, 44#8, 100#8) := by decide
/-- V-ADD-5. -/
theorem test_add_checks_a_first : (after (at_ 0 [0xA0#8, 9#8, 8#8])).map faultOf = some (2, 0, 3, 9) := by decide
/-- V-MUL-1. -/
theorem test_mul : (after (((at_ 6 [0xA2#8, 0#8, 1#8]).setReg 0 8#8).setReg 1 9#8)).map
    (fun t => (t.pc, t.reg 0)) = some (9#9, 72#8) := by decide
/-- V-MUL-3. -/
theorem test_mul_square_wraps : (after ((at_ 0 [0xA2#8, 0#8, 0#8]).setReg 0 255#8)).map (fun t => t.reg 0) = some 1#8 := by
  decide
/-- V-CMP-4. -/
theorem test_cmp_unsigned : (after ((at_ 0 [0xA7#8, 0#8, 1#8]).setReg 1 255#8)).map
    (fun t => (t.pc, t.flags)) = some (3#9, ⟨false, true, false⟩) := by decide
/-- V-CMP-6. -/
theorem test_cmp_fault_keeps_flags : (after ((at_ 0 [0xA7#8, 0#8, 8#8]).setFlags ⟨true, false, false⟩)).map
    (fun t => (faultOf t, t.flags)) = some ((2, 0, 3, 8), ⟨true, false, false⟩) := by decide
/-- V-PUSH-1. -/
theorem test_push : (after ((at_ 0 [0x45#8, 1#8]).setReg 1 42#8)).map
    (fun t => (t.pc, t.sp, t.cell 0xF3)) = some (2#9, 0xF3#8, 42#8) := by decide
/-- V-PUSH-2. -/
theorem test_push_sp : (after (at_ 0 [0x45#8, 7#8])).map
    (fun t => (t.sp, t.cell 0xF3)) = some (0xF3#8, 0xF3#8) := by decide
/-- V-POP-2. -/
theorem test_pop_sp : (after (((at_ 0 [0x46#8, 7#8]).setSp 0xF3#8).memWrite 0xF3#8 0x20#8)).map (fun t => t.sp) =
    some 0x21#8 := by decide
/-- V-POP-1. -/
theorem test_pop : (after (((at_ 0 [0x46#8, 2#8]).setSp 0xF3#8).memWrite 0xF3#8 42#8)).map
    (fun t => (t.reg 2, t.sp, t.cell 0xF3)) = some (42#8, 0xF4#8, 42#8) := by decide
/-- V-CALL-2. -/
theorem test_call_sp : (after (at_ 4 [0x50#8, 7#8])).map
    (fun t => (t.pc, t.sp, t.cell 0xF3)) = some (0xF3#9, 0xF3#8, 6#8) := by decide
/-- V-CALL-5: SP_DECREMENT comes before RETURN_ADDRESS. -/
theorem test_call_fault_order : (after ((at_ 254 [0x50#8, 1#8]).setSp 0#8)).map faultOf = some (2, 254, 4, 0) := by decide
/-- V-RET-3. -/
theorem test_ret_at_end : (after (((at_ 255 [0x11#8]).setSp 0xF3#8).memWrite 0xF3#8 6#8)).map
    (fun t => (t.pc, t.sp)) = some (6#9, 0xF4#8) := by decide
/-- V-RET-2. -/
theorem test_ret_fault : (after ((at_ 0x10 [0x11#8]).setSp 255#8)).map faultOf = some (2, 0x10, 5, 255) := by decide
/-- V-JMP-2. -/
theorem test_jmp_self : (after ((at_ 0x30 [0x54#8, 2#8]).setReg 2 0x30#8)).map (fun t => t.pc) = some 0x30#9 := by decide
/-- V-JMP-3. -/
theorem test_jmp_bad_register : (after (at_ 0 [0x54#8, 8#8])).map faultOf = some (2, 0, 3, 8) := by decide
/-- V-JEQ-1. -/
theorem test_jeq_taken : (after (((at_ 0 [0x55#8, 3#8]).setReg 3 0x20#8).setFlags ⟨true, false, false⟩)).map
    (fun t => t.pc) = some 0x20#9 := by decide
/-- V-JEQ-3: the register byte is checked even though the branch is not taken. -/
theorem test_jeq_bad_register : (after (at_ 0 [0x55#8, 0xC8#8])).map faultOf = some (2, 0, 3, 200) := by decide
/-- V-JNE-2. -/
theorem test_jne_not_taken : (after (((at_ 0 [0x56#8, 3#8]).setReg 3 0x20#8).setFlags ⟨true, false, false⟩)).map
    (fun t => t.pc) = some 2#9 := by decide
/-- V-JNE-1. -/
theorem test_jne_taken : (after ((at_ 0 [0x56#8, 3#8]).setReg 3 0x20#8)).map (fun t => t.pc) = some 0x20#9 := by decide
/-- V-UNK-4. -/
theorem test_unknown_at_end : (after (at_ 255 [2#8])).map faultOf = some (1, 255, 0, 2) := by decide
/-- The second step of V-FETCH-1. -/
theorem test_fetch_past_end : (after (at_ 256 [])).map faultOf = some (2, 256, 1, 256) := by decide

/-! Host actions and texts. -/

/-- H-1. -/
theorem test_start_before_load : State.reset.hostStart = (.refused, State.reset) := by decide
/-- H-3. -/
theorem test_second_load : ((State.reset.hostLoad [1#8]).2.hostLoad [1#8]).1 = .refused := by decide
/-- A word stored by `withFetchWord` is the next instruction run, from reset and from the end of memory. -/
theorem test_with_fetch_word : (after (State.reset.withFetchWord 24 0x080582)).map (fun t => (t.pc, t.reg 5)) = some (3#9, 8#8) ∧
    fetch ({ State.reset with pc := 255#9 }.withFetchWord 24 0x080582) = .ok (.ldi 5#8 8#8) := ⟨by decide, rfl⟩
/-- RS's own spellings in R98, and R99's example line. -/
theorem test_text_forms : assembleLine ['L', 'D', 'I', ' ', 'R', '0', ',', '8'] = some [0x82#8, 0#8, 8#8] ∧
    assembleLine ['A', 'D', 'D', ' ', '0', ' ', '1'] = some [0xA0#8, 0#8, 1#8] ∧
    assembleLine ['P', 'O', 'P', ' ', 'S', 'P'] = some [0x46#8, 7#8] ∧
    assembleLine ['P', 'R', 'N', ' ', 'R', '8'] = none ∧
    loaderLine ['1', '0', '0', '0', '0', '0', '1', '0', ' ', '#', ' ', 'L', 'D', 'I'] = .word 0x82#8 ∧
    sinkLine 72#8 = ['7', '2'] := by decide

/-! Witnesses. -/

/-- A Faulted engine. -/
def dead : State := State.reset.faulted (.unknownOpcode 0#8)

theorem witness_UndefinedOpcodesRaise :
    ∀ p ∈ [((at_ 0 [0x00#8]), 0x00#8), (at_ 255 [0x02#8], 0x02#8)],
      p.2 ∉ [0x01#8, 0x82#8, 0x47#8, 0xA2#8, 0x45#8, 0x46#8, 0x50#8, 0x11#8, 0xA0#8, 0xA7#8, 0x54#8, 0x56#8, 0x55#8] ∧
        p.1.running = true ∧ p.1.pc.toNat < 256 ∧ p.1.cell p.1.pc.toNat = p.2 := by decide

theorem witness_ResetValues : dead.hostReset = State.reset ∨ dead.hostReset = dead.hostReset := .inr rfl

theorem witness_LoadPlacesProgram : Memory.Wf State.reset.memory ∧ State.reset.loaded = false ∧
    (List.replicate 256 (1 : Byte)).length ≤ 256 ∧ 256 < (List.replicate 257 (1 : Byte)).length ∧
    (State.reset.hostLoad []).2.loaded = true ∧
    ∃ t, t = (dead.hostReset.hostLoad []).2.hostStart.2 := ⟨by decide, rfl,
    by rw [List.length_replicate], by rw [List.length_replicate]; decide, rfl, _, rfl⟩

theorem witness_StartAccepted :
    ((State.reset.hostLoad []).2.running = false ∧ (State.reset.hostLoad []).2.hostStatus.kind = 0 ∧
      (State.reset.hostLoad []).2.loaded = true) ∧
    ¬(State.reset.running = false ∧ State.reset.hostStatus.kind = 0 ∧ State.reset.loaded = true) ∧
    256 < (List.replicate 257 (1 : Byte)).length := 
  ⟨by decide, by decide, by rw [List.length_replicate]; decide⟩

theorem witness_FirstStepState : (List.replicate 256 (1 : Byte)).length ≤ 256 := by rw [List.length_replicate]

theorem witness_RerunAfterHalt : ∃ s t, s.fault = none ∧ s.loaded = true ∧ exec .hlt s = .next t :=
  ⟨at_ 5 [1#8], _, rfl, rfl, rfl⟩

theorem witness_FaultedLeftOnlyByReset : dead.engineStatus = .faulted := by decide

theorem witness_StatusFollowsState : ∃ s t, Reachable s ∧ s.engineStatus = .running ∧ step s = .next t :=
  ⟨(State.reset.hostLoad [1#8]).2.hostStart.2, _, .start (.load _ .reset), by decide, rfl⟩

theorem witness_StepRunsDecoded :
    (∃ rest, (at_ 255 [0x01#8]).running = true ∧ decode (at_ 255 [0x01#8]).bytesAtPc = .ok (.hlt, rest)) ∧
    ∃ rest, (at_ 253 [0x82#8, 7#8, 9#8]).running = true ∧
      decode (at_ 253 [0x82#8, 7#8, 9#8]).bytesAtPc = .ok (.ldi 7#8 9#8, rest) :=
  ⟨⟨_, rfl, rfl⟩, _, rfl, rfl⟩

theorem witness_RunningEngineAlwaysSteps : (at_ 0 []).running = true ∧
    (State.reset.running = false ∧ State.reset.fault = none) ∧ dead.running = false ∧ dead.fault ≠ none := by decide

theorem witness_AddressesNeverWrap :
    ((at_ 256 []).running = true ∧ 256 ≤ (at_ 256 []).pc.toNat) ∧
    ((at_ 254 [0x82#8, 0#8]).running = true ∧ (at_ 254 [0x82#8, 0#8]).pc.toNat < 256 ∧
      decodeOpcode ((at_ 254 [0x82#8, 0#8]).cell (at_ 254 [0x82#8, 0#8]).pc.toNat) = some .ldi ∧ 1 ≤ 2 ∧
      2 ≤ Opcode.ldi.operandCount ∧ (at_ 254 [0x82#8, 0#8]).pc.toNat + (2 - 1) < 256 ∧
      256 ≤ (at_ 254 [0x82#8, 0#8]).pc.toNat + 2) ∧
    ((at_ 255 [0x47#8]).pc.toNat < 256 ∧ decodeOpcode ((at_ 255 [0x47#8]).cell (at_ 255 [0x47#8]).pc.toNat) = some .prn ∧
      1 ≤ Opcode.prn.operandCount ∧ 256 ≤ (at_ 255 [0x47#8]).pc.toNat + 1) ∧
    ∃ v, spDec ((at_ 0 []).setSp 1#8).sp = .ok v := ⟨by decide, by decide, by decide, 0#8, rfl⟩

theorem witness_FaultsArePrecise : ∃ s t r, s.Ready ∧ step s = .next t ∧ t.fault = some r :=
  ⟨at_ 0 [0x45#8, 8#8], _, _, ⟨rfl, rfl⟩, rfl, rfl⟩

theorem witness_FirstFaultByPriority : (at_ 254 [0x50#8, 9#8]).Ready := ⟨rfl, rfl⟩

theorem witness_OnlyHltAndFaultsStop : ∃ s t, s.Ready ∧ step s = .next t ∧ t.running = false :=
  ⟨at_ 0 [0x01#8], _, ⟨rfl, rfl⟩, rfl, rfl⟩

theorem witness_NoStepUnsupported : ∃ s t r, s.Ready ∧ step s = .next t ∧ t.fault = some r :=
  ⟨at_ 255 [0x02#8], _, _, ⟨rfl, rfl⟩, rfl, rfl⟩

theorem witness_NextPcExact : ∃ t, (at_ 253 [0x82#8, 3#8, 0xFF#8]).runs (.ldi 3#8 0xFF#8) t :=
  ⟨_, ⟨rfl, rfl⟩, rfl, rfl, rfl⟩

theorem witness_LoadedInvisible : (∃ t, State.reset.hostLoad [1#8] = (.ok, t)) ∧
    ∃ t, step (at_ 0 [0x11#8]) = .next t := ⟨⟨_, rfl⟩, _, rfl⟩

theorem witness_OutputEvents :
    (∃ t, (at_ 0 [0x47#8, 7#8]).Ready ∧ step (at_ 0 [0x47#8, 7#8]) = .next t ∧ (7#8).toNat < 8 ∧
      fetch (at_ 0 [0x47#8, 7#8]) = .ok (.prn 7#8)) ∧
    (∃ t, step (at_ 0 [0x47#8, 8#8]) = .next t ∧ t.fault.isSome = true) ∧
    ∃ t, step (at_ 0 [0x01#8]) = .next t ∧ ∀ r, fetch (at_ 0 [0x01#8]) ≠ .ok (.prn r) :=
  ⟨⟨_, ⟨rfl, rfl⟩, rfl, by decide, rfl⟩, ⟨_, rfl, rfl⟩, _, rfl, fun r h => by
    have e : fetch (at_ 0 [0x01#8]) = .ok .hlt := rfl
    rw [e] at h
    cases h⟩

theorem witness_OnlyCmpWritesFlags : ∃ t, (at_ 0 [0xA7#8, 0#8, 7#8]).Ready ∧ step (at_ 0 [0xA7#8, 0#8, 7#8]) = .next t ∧
    t.flags ≠ (at_ 0 [0xA7#8, 0#8, 7#8]).flags ∧ fetch (at_ 0 [0xA7#8, 0#8, 7#8]) = .ok (.cmp 0#8 7#8) ∧
    t.fault = none ∧ Reachable State.reset := ⟨_, ⟨rfl, rfl⟩, rfl, by decide, rfl, rfl, .reset⟩

theorem witness_LessGreaterUnobserved :
    (at_ 0 [0x56#8, 0#8]).sameButLG ((at_ 0 [0x56#8, 0#8]).setFlags ⟨false, true, true⟩) := rfl

theorem witness_OnlyPushAndCallStore : ∃ t, step ((at_ 0 [0x50#8, 0#8]).setSp 1#8) = .next t ∧
    t.cell 0 ≠ ((at_ 0 [0x50#8, 0#8]).setSp 1#8).cell 0 := ⟨_, rfl, by decide⟩

theorem witness_FetchSeesStore :
    (∃ t v, Memory.Wf (at_ 0 [0x45#8, 7#8]).memory ∧ (at_ 0 [0x45#8, 7#8]).runs (.push 7#8) t ∧
      ∃ h : (7#8).toNat < 8, v = t.regs[(7#8).toNat] ∧ (0xF2#9).toNat + 1 = t.sp.toNat) ∧
    ∃ t v, (at_ 253 [0x50#8, 0#8]).runs (.call 0#8) t ∧ BitVec.toNat (w := 8) v = (at_ 253 [0x50#8, 0#8]).pc.toNat + 2 ∧
      (0xF3#9).toNat = t.sp.toNat :=
  ⟨⟨_, _, by decide, ⟨⟨rfl, rfl⟩, rfl, rfl, rfl⟩, by decide, rfl, rfl⟩, _, 255#8, ⟨⟨rfl, rfl⟩, rfl, rfl, rfl⟩, rfl, rfl⟩

theorem witness_InvKeptByStep : ∃ s t, s.Inv ∧ step s = .next t :=
  ⟨at_ 0 [0x45#8, 1#8], _, ⟨by decide, by decide, by decide, fun _ => rfl, fun _ => rfl, fun _ h => by cases h⟩, rfl⟩

theorem witness_InvOfReachable : Reachable (State.reset.hostLoad [1#8]).2.hostStart.2 := .start (.load _ .reset)

theorem witness_HltHalts : (at_ 255 [0x01#8]).running = true ∧ (at_ 255 [0x01#8]).pc.toNat ≤ 255 ∧
    (at_ 255 [0x01#8]).cell (at_ 255 [0x01#8]).pc.toNat = 0x01#8 ∧ (at_ 255 [0x01#8]).fault = none ∧
    (at_ 255 [0x01#8]).loaded = true := by decide

/-- What the statements of LDI, ADD, MUL and CMP assume of a step whose operand bytes pass the end, at 254 and at 255. -/
def pastEndThree (op : Byte) : Bool :=
  [254, 255].all fun p => (at_ p [op]).running && ((at_ p [op]).pc.toNat == p) && ((at_ p [op]).cell p == op)

/-- The same for the two-byte instructions, at 255. -/
def pastEndTwo (op : Byte) : Bool :=
  (at_ 255 [op]).running && ((at_ 255 [op]).pc.toNat == 255) && ((at_ 255 [op]).cell 255 == op)

/-- The two boundary register bytes: 7 names a register, 8 does not. -/
abbrev registerBoundary : Prop := (7#8 : Byte).toNat < 8 ∧ 8 ≤ (8#8 : Byte).toNat

theorem witness_LdiLoadsImmediate : registerBoundary ∧ pastEndThree 0x82#8 = true := by decide
theorem witness_PrnEmits : registerBoundary ∧ pastEndTwo 0x47#8 = true := by decide
theorem witness_AddWraps : registerBoundary ∧ pastEndThree 0xA0#8 = true := by decide
theorem witness_MulWraps : registerBoundary ∧ pastEndThree 0xA2#8 = true := by decide
theorem witness_CmpSetsFlags : registerBoundary ∧ pastEndThree 0xA7#8 = true := by decide

theorem witness_PushStores : registerBoundary ∧ pastEndTwo 0x45#8 = true ∧ Memory.Wf (at_ 255 [0x45#8]).memory ∧
    ((at_ 0 []).setSp 1#8).sp ≠ 0#8 ∧ ((at_ 0 []).setSp 0#8).sp = 0#8 := by decide

theorem witness_PopLoads : registerBoundary ∧ pastEndTwo 0x46#8 = true ∧ (6#8 : Byte).toNat ≠ 7 ∧ (6#8 : Byte).toNat < 7 ∧
    ((at_ 0 []).setSp 254#8).sp ≠ 255#8 ∧ ((at_ 0 []).setSp 255#8).sp = 255#8 ∧
    ((at_ 0 []).memWrite 0xF4#8 254#8).cell (at_ 0 []).sp.toNat ≠ 255#8 ∧
    ((at_ 0 []).memWrite 0xF4#8 255#8).cell (at_ 0 []).sp.toNat = 255#8 := by decide

theorem witness_CallPushesReturn : registerBoundary ∧ pastEndTwo 0x50#8 = true ∧ Memory.Wf (at_ 253 [0x50#8, 7#8]).memory ∧
    ((at_ 253 []).setSp 1#8).sp ≠ 0#8 ∧ ((at_ 253 []).setSp 1#8).pc.toNat + 2 < 256 ∧ ((at_ 254 []).setSp 0#8).sp = 0#8 ∧
    (at_ 254 []).pc.toNat = 254 ∧ (at_ 254 []).sp ≠ 0#8 := by decide

theorem witness_RetPopsTarget : ((at_ 0 []).setSp 254#8).sp ≠ 255#8 ∧ ((at_ 0 []).setSp 255#8).sp = 255#8 ∧
    (at_ 255 [0x11#8]).running = true ∧ (at_ 255 [0x11#8]).pc.toNat ≤ 255 ∧
    (at_ 255 [0x11#8]).cell (at_ 255 [0x11#8]).pc.toNat = 0x11#8 := by decide

theorem witness_JmpJumps : registerBoundary ∧ pastEndTwo 0x54#8 = true := by decide
theorem witness_JeqBranchesOnEqual : registerBoundary ∧ pastEndTwo 0x55#8 = true ∧
    ((at_ 0 []).setFlags ⟨true, false, false⟩).flags.e = true ∧ (at_ 0 []).flags.e = false := by decide
theorem witness_JneBranchesOnUnequal : registerBoundary ∧ pastEndTwo 0x56#8 = true ∧
    ((at_ 0 []).setFlags ⟨true, false, false⟩).flags.e = true ∧ (at_ 0 []).flags.e = false := by decide

/-- A JMP R2 at 0x30 to itself. -/
def selfJump : State := (at_ 0x30 [0x54#8, 2#8]).setReg 2 0x30#8

theorem witness_JmpToItselfNeverEnds : (2#8 : Byte).toNat < 8 ∧ selfJump.running = true ∧ selfJump.pc.toNat + 1 < 256 ∧
    selfJump.cell selfJump.pc.toNat = 0x54#8 ∧ selfJump.cell (selfJump.pc.toNat + 1) = 2#8 ∧
    (selfJump.reg 2).toNat = selfJump.pc.toNat := by decide

theorem witness_StackPointerNeverWraps : (1#8 : Byte) ≠ 0#8 ∧ (254#8 : Byte) ≠ 255#8 := by decide

theorem witness_RegisterWriteFrame : ∃ t, exec (.add 7#8 6#8) (at_ 0 []) = .next t ∧
    ∃ x, Instr.add 7#8 6#8 = .ldi 7#8 x ∨ Instr.add 7#8 6#8 = .add 7#8 x ∨ Instr.add 7#8 6#8 = .mul 7#8 x :=
  ⟨_, rfl, _, .inr (.inl rfl)⟩

theorem witness_NoWriteFrame : ∃ i t, (∃ r b, i = .prn r ∨ i = .cmp r b ∨ i = .jmp r ∨ i = .jeq r ∨ i = .jne r ∨ i = .hlt) ∧
    exec i (at_ 0 []) = .next t := ⟨.cmp 0#8 7#8, _, ⟨_, _, .inr (.inl rfl)⟩, rfl⟩

theorem witness_StackStoreFrame : ∃ t a, exec (.call 7#8) ((at_ 0 []).setSp 1#8) = .next t ∧
    spDec ((at_ 0 []).setSp 1#8).sp = .ok a := ⟨_, _, rfl, rfl⟩

theorem witness_StackLoadFrame : (∃ t, exec (.pop 7#8) (at_ 0 []) = .next t) ∧ ∃ t, exec .ret (at_ 0 []) = .next t :=
  ⟨⟨_, rfl⟩, _, rfl⟩

/-- CALL R1 at 0, whose target 4 holds a RET. -/
def callRet : State := ((at_ 0 [0x50#8, 1#8]).setReg 1 4#8).memWrite 4#8 0x11#8

/-- PUSH R1 at 0, then POP R2. -/
def pushPop : State := (at_ 0 [0x45#8, 1#8, 0x46#8, 2#8]).setReg 1 42#8

theorem witness_StackPointerMovesByOne : (∃ t, callRet.runs (.call 1#8) t ∧ Instr.pushes (.call 1#8) = true) ∧
    ∃ t, (at_ 0 [0x46#8, 6#8]).runs (.pop 6#8) t ∧ Instr.pops (.pop 6#8) = true :=
  ⟨⟨_, ⟨⟨rfl, rfl⟩, rfl, rfl, rfl⟩, rfl⟩, _, ⟨⟨rfl, rfl⟩, rfl, rfl, rfl⟩, rfl⟩

theorem witness_CallThenRet : ∃ t u v, Memory.Wf callRet.memory ∧ callRet.runs (.call 1#8) t ∧ BalancedRun t u ∧
    u.runs .ret v :=
  ⟨_, _, _, by decide, ⟨⟨rfl, rfl⟩, rfl, rfl, rfl⟩, .done _, ⟨⟨rfl, rfl⟩, rfl, rfl, rfl⟩⟩

theorem witness_PushThenPop : ∃ t u v, (1#8 : Byte).toNat < 8 ∧ (2#8 : Byte).toNat < 8 ∧ Memory.Wf pushPop.memory ∧
    pushPop.runs (.push 1#8) t ∧ BalancedRun t u ∧ u.runs (.pop 2#8) v ∧ (2#8 : Byte).toNat ≠ 7 :=
  ⟨_, _, _, by decide, by decide, by decide, ⟨⟨rfl, rfl⟩, rfl, rfl, rfl⟩, .done _, ⟨⟨rfl, rfl⟩, rfl, rfl, rfl⟩, by decide⟩

/-- A balanced run that is not empty: a CALL and its RET. -/
theorem witness_BalancedRunKeepsStack : ∃ v, BalancedRun callRet v ∧ v.pc = 2#9 := by
  refine ⟨(after ((after callRet).getD callRet)).getD callRet, ?_, by decide⟩
  exact .nested (t := (after callRet).getD callRet) (u := (after callRet).getD callRet) (i := .call 1#8) (j := .ret)
    ⟨⟨rfl, rfl⟩, rfl, rfl, rfl⟩ rfl (.done _) ⟨⟨rfl, rfl⟩, rfl, rfl, rfl⟩ rfl (.done _)

theorem witness_StatusDistinguishesFaults : dead.hostStatus = dead.hostStatus := rfl

theorem witness_CanonicalTextAssembles : Instr.WellFormed (.ldi 7#8 255#8) = true := by decide

end Sys2Proof.Tests
end

/-! Proofs of the statements about the state (10_state.md): the values after reset, the status, and `loaded`. -/

namespace Sys2Proof.Machine

/-! Reset (R43) -/

theorem State.reset_reg_of_ne_seven : ∀ r : RegIndex, r ≠ 7 → State.reset.reg r = 0#8 := by decide

theorem State.reset_hostStatus : State.reset.hostStatus = ⟨false, 0, 0, (0, .number 0)⟩ := rfl

/-- Settles O6. No row of R43 reads `out`, the one field in which `hostReset` may differ from power-on. -/
theorem resetValues : Obligations.ResetValues := by
  rintro s t (rfl | rfl) <;>
    exact ⟨fun a _ => Memory.read_nil a, State.reset_reg_of_ne_seven, rfl, rfl, rfl, rfl, State.reset_hostStatus, rfl,
      rfl⟩

/-! What a step does to the latch and to `loaded` -/

section Step

variable {i : Instr} {s t : State}

/-- An instruction that completes keeps the latch and `loaded`; one that raises only takes its fault. -/
theorem exec_completes_or_faults (e : exec i s = .next t) :
    (t.fault = s.fault ∧ t.loaded = s.loaded) ∨ ∃ c, t = s.faulted c := by
  cases i with
  | hlt =>
    cases execHlt_cases e
    exact .inl ⟨rfl, rfl⟩
  | ldi r imm =>
    obtain ⟨_, rfl⟩ | ⟨_, rfl⟩ := execLdi_cases e
    exacts [.inl ⟨rfl, rfl⟩, .inr ⟨_, rfl⟩]
  | prn r =>
    obtain ⟨_, rfl⟩ | ⟨_, rfl⟩ := execPrn_cases e
    exacts [.inl ⟨rfl, rfl⟩, .inr ⟨_, rfl⟩]
  | mul a b =>
    obtain ⟨_, _, rfl⟩ | ⟨_, rfl⟩ | ⟨_, _, rfl⟩ := execMul_cases e
    exacts [.inl ⟨rfl, rfl⟩, .inr ⟨_, rfl⟩, .inr ⟨_, rfl⟩]
  | push r =>
    obtain ⟨_, _, rfl⟩ | ⟨_, rfl⟩ | ⟨_, _, rfl⟩ := execPush_cases e
    exacts [.inl ⟨rfl, rfl⟩, .inr ⟨_, rfl⟩, .inr ⟨_, rfl⟩]
  | pop r =>
    obtain ⟨_, _, _, rfl⟩ | ⟨_, _, rfl⟩ | ⟨_, rfl⟩ | ⟨_, _, rfl⟩ | ⟨_, _, rfl⟩ := execPop_cases e
    exacts [.inl ⟨rfl, rfl⟩, .inl ⟨rfl, rfl⟩, .inr ⟨_, rfl⟩, .inr ⟨_, rfl⟩, .inr ⟨_, rfl⟩]
  | call r =>
    obtain ⟨_, _, _, rfl⟩ | ⟨_, rfl⟩ | ⟨_, _, rfl⟩ | ⟨_, _, _, rfl⟩ := execCall_cases e
    exacts [.inl ⟨rfl, rfl⟩, .inr ⟨_, rfl⟩, .inr ⟨_, rfl⟩, .inr ⟨_, rfl⟩]
  | ret =>
    obtain ⟨_, rfl⟩ | ⟨_, rfl⟩ := execRet_cases e
    exacts [.inl ⟨rfl, rfl⟩, .inr ⟨_, rfl⟩]
  | add a b =>
    obtain ⟨_, _, rfl⟩ | ⟨_, rfl⟩ | ⟨_, _, rfl⟩ := execAdd_cases e
    exacts [.inl ⟨rfl, rfl⟩, .inr ⟨_, rfl⟩, .inr ⟨_, rfl⟩]
  | cmp a b =>
    obtain ⟨_, _, rfl⟩ | ⟨_, rfl⟩ | ⟨_, _, rfl⟩ := execCmp_cases e
    exacts [.inl ⟨rfl, rfl⟩, .inr ⟨_, rfl⟩, .inr ⟨_, rfl⟩]
  | jmp r =>
    obtain ⟨_, rfl⟩ | ⟨_, rfl⟩ := execJmp_cases e
    exacts [.inl ⟨rfl, rfl⟩, .inr ⟨_, rfl⟩]
  | jne r =>
    obtain ⟨_, rfl⟩ | ⟨_, rfl⟩ := execJne_cases e
    exacts [.inl ⟨rfl, rfl⟩, .inr ⟨_, rfl⟩]
  | jeq r =>
    obtain ⟨_, rfl⟩ | ⟨_, rfl⟩ := execJeq_cases e
    exacts [.inl ⟨rfl, rfl⟩, .inr ⟨_, rfl⟩]

/-- The same of a whole step, whose fetch can raise too. -/
theorem step_completes_or_faults (h : step s = .next t) :
    (t.fault = s.fault ∧ t.loaded = s.loaded) ∨ ∃ c, t = s.faulted c := by
  obtain ⟨_, ⟨i, _, e⟩ | ⟨c, _, rfl⟩⟩ := step_eq_next h
  · exact exec_completes_or_faults e
  · exact .inr ⟨c, rfl⟩

theorem step_loaded (h : step s = .next t) : t.loaded = s.loaded := by
  obtain ⟨_, hl⟩ | ⟨c, rfl⟩ := step_completes_or_faults h
  · exact hl
  · rfl

/-- An engine that a step leaves Running has the latch it had. -/
theorem step_fault_of_running (h : step s = .next t) (ht : t.running = true) : t.fault = s.fault := by
  obtain ⟨hf, _⟩ | ⟨c, rfl⟩ := step_completes_or_faults h
  · exact hf
  · simp at ht

end Step

/-! The status (R41) -/

theorem FaultCause.code_ne_zero (c : FaultCause) : c.code ≠ 0 := by cases c <;> simp [FaultCause.code]

/-- The kind 0 is that of the unwritten latch alone (R40). -/
theorem State.hostStatus_kind_eq_zero {s : State} : s.hostStatus.kind = 0 ↔ s.fault = none := by
  unfold State.hostStatus
  cases s.fault with
  | none => simp
  | some r => simp [r.cause.code_ne_zero]

theorem State.engineStatus_eq_running {s : State} : s.engineStatus = .running ↔ s.running = true := by
  unfold State.engineStatus
  cases s.running <;> cases s.fault <;> simp

theorem State.engineStatus_eq_halted {s : State} :
    s.engineStatus = .halted ↔ s.running = false ∧ s.fault = none := by
  unfold State.engineStatus
  cases s.running <;> cases s.fault <;> simp

theorem State.engineStatus_eq_faulted {s : State} :
    s.engineStatus = .faulted ↔ s.running = false ∧ s.fault ≠ none := by
  unfold State.engineStatus
  cases s.running <;> cases s.fault <;> simp

theorem State.hostLoad_running (s : State) (words : List Byte) : (s.hostLoad words).2.running = s.running := by
  unfold State.hostLoad
  split_ifs <;> rfl

theorem State.hostLoad_fault (s : State) (words : List Byte) : (s.hostLoad words).2.fault = s.fault := by
  unfold State.hostLoad
  split_ifs <;> rfl

/-- `start` changes nothing but `running`, and that only where the latch is unwritten (R252). -/
theorem State.hostStart_cases (s : State) :
    s.hostStart.2 = s ∨ s.fault = none ∧ s.hostStart.2 = { s with running := true } := by
  unfold State.hostStart
  split_ifs with h
  · simp only [State.mayStart, Bool.and_eq_true, Option.isNone_iff_eq_none] at h
    exact .inr ⟨h.1.2, rfl⟩
  · exact .inl rfl

/-- In every reachable Running state the latch is unwritten (R41). -/
theorem Reachable.fault_of_running {s : State} (h : Reachable s) : s.running = true → s.fault = none := by
  induction h with
  | reset => exact fun _ => rfl
  | hostReset _ _ => exact fun _ => rfl
  | load words _ ih => rwa [State.hostLoad_running, State.hostLoad_fault]
  | @start s _ ih =>
    obtain hs | ⟨hf, hs⟩ := s.hostStart_cases <;> rw [hs]
    · exact ih
    · exact fun _ => hf
  | step _ hst ih =>
    exact fun ht => (step_fault_of_running hst ht).trans (ih (step_eq_next hst).1)

/-- Settles O12. The clause on reachable states is an induction over host actions and steps; the others say what
`running` and the latch each decide. -/
theorem statusFollowsState : Obligations.StatusFollowsState := by
  intro s
  simp only [ne_eq, State.hostStatus_kind_eq_zero]
  exact ⟨State.engineStatus_eq_halted, State.engineStatus_eq_running, State.engineStatus_eq_faulted,
    fun h hs => h.fault_of_running (State.engineStatus_eq_running.mp hs),
    fun _ h => State.engineStatus_eq_running.mpr (step_eq_next h).1⟩

/-! `loaded` (R42) -/

/-- The state with another value in `loaded`. -/
def State.setLoaded (s : State) (b : Bool) : State := { s with loaded := b }

@[simp] theorem State.setLoaded_pc (s : State) (b : Bool) : (s.setLoaded b).pc = s.pc := rfl
@[simp] theorem State.sp_setLoaded (s : State) (b : Bool) : (s.setLoaded b).sp = s.sp := rfl
@[simp] theorem State.cell_setLoaded (s : State) (b : Bool) (a : Nat) : (s.setLoaded b).cell a = s.cell a := rfl

@[simp] theorem fetch_setLoaded (s : State) (b : Bool) : fetch (s.setLoaded b) = fetch s := rfl

/-- No handler reads `loaded`. Where the checks of a handler answer the same, both states take the same writes. -/
theorem exec_setLoaded {i : Instr} {s t : State} (b : Bool) :
    exec i s = .next t → exec i (s.setLoaded b) = .next (t.setLoaded b) := by
  cases i with
  | hlt => rintro ⟨⟩; rfl
  | ldi r imm => simp only [exec, execLdi]; cases regIdx r <;> rintro ⟨⟩ <;> rfl
  | prn r => simp only [exec, execPrn]; cases regIdx r <;> rintro ⟨⟩ <;> rfl
  | mul x y => simp only [exec, execMul]; cases regPair x y <;> rintro ⟨⟩ <;> rfl
  | add x y => simp only [exec, execAdd]; cases regPair x y <;> rintro ⟨⟩ <;> rfl
  | cmp x y => simp only [exec, execCmp]; cases regPair x y <;> rintro ⟨⟩ <;> rfl
  | jmp r => simp only [exec, execJmp]; cases regIdx r <;> rintro ⟨⟩ <;> rfl
  | jne r => simp only [exec, execJne]; cases regIdx r <;> rintro ⟨⟩ <;> rfl
  | jeq r => simp only [exec, execJeq]; cases regIdx r <;> rintro ⟨⟩ <;> rfl
  | ret => simp only [exec, execRet, State.sp_setLoaded]; cases spInc s.sp <;> rintro ⟨⟩ <;> rfl
  | push r =>
    simp only [exec, execPush, State.sp_setLoaded]
    cases regIdx r <;> cases spDec s.sp <;> rintro ⟨⟩ <;> rfl
  | call r =>
    by_cases hp : Config.memSize ≤ s.pc.toNat + 2 <;>
      simp only [exec, execCall, State.sp_setLoaded, State.setLoaded_pc, hp, ↓reduceIte] <;>
      cases regIdx r <;> cases spDec s.sp <;> rintro ⟨⟩ <;> rfl
  | pop r =>
    simp only [exec, execPop, State.sp_setLoaded, State.cell_setLoaded]
    cases regIdx r with
    | error c => rintro ⟨⟩; rfl
    | ok rd =>
      by_cases h7 : rd = Config.spIndex
      · simp only [bind, Except.bind, if_pos h7]
        cases spInc (s.cell s.sp.toNat) <;> rintro ⟨⟩ <;> rfl
      · simp only [bind, Except.bind, if_neg h7]
        cases spInc s.sp <;> rintro ⟨⟩ <;> rfl

/-- A step from a state with another `loaded` is the same step. -/
theorem step_setLoaded {s t : State} (b : Bool) (h : step s = .next t) :
    step (s.setLoaded b) = .next (t.setLoaded b) := by
  obtain ⟨hr, ⟨i, hf, e⟩ | ⟨c, hf, rfl⟩⟩ := step_eq_next h
  · rw [step_of_fetch_ok (s := s.setLoaded b) hr ((fetch_setLoaded s b).trans hf)]
    exact exec_setLoaded b e
  · exact step_of_fetch_error (s := s.setLoaded b) hr ((fetch_setLoaded s b).trans hf)

/-- A load that answers ok sets `loaded`: the two other answers are not ok (R251). -/
theorem State.loaded_of_hostLoad_ok {s t : State} {words : List Byte} (h : s.hostLoad words = (.ok, t)) :
    t.loaded = true := by
  unfold State.hostLoad at h
  split_ifs at h <;> cases h
  rfl

/-- Settles O21. -/
theorem loadedInvisible : Obligations.LoadedInvisible :=
  ⟨rfl, fun _ _ _ => State.loaded_of_hostLoad_ok, fun _ _ b h => ⟨step_loaded h, step_setLoaded b h⟩⟩

end Sys2Proof.Machine

/-! Proofs of the statement about addresses (20_memory.md): they are range-checked and never wrap (R65). -/

namespace Sys2Proof.Machine

theorem operandCount_le_two (f : Format) : f.operandCount ≤ 2 := by
  cases f <;> decide

/-- Operand bytes are fetched in increasing order, so the first one that does not exist is the one that raises. -/
theorem fetchOperands_past_end {s : State} {f : Format} {k : Nat} (hk : 1 ≤ k) (hc : k ≤ f.operandCount)
    (hin : s.pc.toNat + (k - 1) < 256) (hout : 256 ≤ s.pc.toNat + k) :
    fetchOperands s f = .error (.outOfBounds .operandAddress (s.pc.toNat + k)) := by
  rw [fetchOperands_eq]
  obtain rfl | rfl : k = 1 ∨ k = 2 := by have := operandCount_le_two f; omega
  · rw [if_pos ⟨hc, hout⟩]
  · rw [if_neg (by omega), if_pos ⟨hc, hout⟩]

theorem fetch_operand_past_end {s : State} {o : Opcode} {k : Nat} (hpc : s.pc.toNat < 256)
    (hd : decodeOpcode (s.cell s.pc.toNat) = some o) (hk : 1 ≤ k) (hc : k ≤ o.operandCount)
    (hin : s.pc.toNat + (k - 1) < 256) (hout : 256 ≤ s.pc.toNat + k) :
    fetch s = .error (.outOfBounds .operandAddress (s.pc.toNat + k)) := by
  rw [fetch_known hpc hd, fetchOperands_past_end hk hc hin hout]
  rfl

/-- A decrement that raises nothing does not wrap: the only value it would wrap from is 0, where it raises (R170). -/
theorem toNat_of_spDec_ok {sp v : Byte} (h : spDec sp = .ok v) : v.toNat + 1 = sp.toNat := by
  by_cases h0 : sp = 0#8
  · subst h0
    cases h
  · rw [spDec_of_ne h0] at h
    cases h
    bv_omega

/-- Settles O15. Each out-of-range fetch raises, and a step takes the fault its fetch raises. -/
theorem addressesNeverWrap : Obligations.AddressesNeverWrap :=
  fun s => ⟨fun hr hpc => step_of_fetch_error hr (fetch_past_end hpc),
    fun _ _ hr hpc hd hk hc hin hout => step_of_fetch_error hr (fetch_operand_past_end hpc hd hk hc hin hout),
    fun _ => toNat_of_spDec_ok, s.sp.isLt⟩

end Sys2Proof.Machine

/-! Proofs of the statements about the opcode bytes (30_encoding.md): the literal match of R85 with the table of R86, and
the undefined opcodes of R89. -/

namespace Sys2Proof.Machine

theorem mem_allOpcodes (o : Opcode) : o ∈ allOpcodes := by
  cases o <;> decide

/-- A byte none of the thirteen tags has decodes to no tag. -/
theorem decodeOpcode_eq_none_of_not_mem {op : Byte} (h : op ∉ allOpcodes.map Opcode.byte) : decodeOpcode op = none :=
  decodeOpcode_eq_none.mpr fun o ho => h (ho ▸ List.mem_map_of_mem (mem_allOpcodes o))

/-- An undefined opcode is rejected before any byte after it is looked at (R120). -/
theorem decode_of_decodeOpcode_eq_none {op : Byte} (h : decodeOpcode op = none) (rest : List Byte) :
    decode (op :: rest) = .error (.unknownOpcode op) := by
  simp only [decode, h]

/-- What `status()` reports right after a fault is taken (R226). -/
theorem State.hostStatus_faulted (s : State) (c : FaultCause) :
    (s.faulted c).hostStatus = ⟨false, c.code, s.pc.toNat, c.detail⟩ := rfl

/-- The byte values that decode are those of the thirteen tags, each once. -/
theorem defined_opcodes_perm :
    ((List.range 256).filter fun n => (decodeOpcode (BitVec.ofNat 8 n)).isSome).Perm
      (allOpcodes.map fun o => o.byte.toNat) := by
  rw [List.perm_ext_iff_of_nodup (List.nodup_range.filter _) (by decide)]
  intro n
  simp only [List.mem_filter, List.mem_range, Option.isSome_iff_exists, decodeOpcode_eq_some, List.mem_map,
    mem_allOpcodes, true_and]
  constructor
  · rintro ⟨hn, o, ho⟩
    exact ⟨o, by rw [← ho, BitVec.toNat_ofNat, Nat.mod_eq_of_lt hn]⟩
  · rintro ⟨o, rfl⟩
    exact ⟨o.byte.isLt, o, by rw [BitVec.ofNat_toNat, BitVec.setWidth_eq]⟩

/-- R89's count: 256 bytes less the thirteen of the table. -/
theorem length_undefined_opcodes :
    ((List.range 256).filter fun n => (decodeOpcode (BitVec.ofNat 8 n)).isNone).length = 243 := by
  have hsplit := List.length_eq_length_filter_add (l := List.range 256)
    fun n => (decodeOpcode (BitVec.ofNat 8 n)).isSome
  have hdefined : (allOpcodes.map fun o => o.byte.toNat).length = 13 := rfl
  simp only [Option.not_isSome, List.length_range, defined_opcodes_perm.length_eq, hdefined] at hsplit
  omega

/-- Settles O4. The thirteen bytes listed are those of the tags, so a byte outside them has no tag; then `decode` rejects
it, and the fetch raises the fault that the step takes. -/
theorem undefinedOpcodesRaise : Obligations.UndefinedOpcodesRaise := by
  refine ⟨fun s op hop => ?_, length_undefined_opcodes, rfl⟩
  have hnone : decodeOpcode op = none := decodeOpcode_eq_none_of_not_mem hop
  refine ⟨decode_of_decodeOpcode_eq_none hnone, ?_⟩
  rintro hr hpc rfl
  exact ⟨step_of_fetch_error hr (fetch_unknown hpc hnone), s.hostStatus_faulted _⟩

/-- The rows of the table that pair each tag with its byte are exactly what `decodeOpcode` answers. -/
theorem mem_opcode_table {op : Byte} {o : Opcode} :
    (op, o) ∈ allOpcodes.map (fun o => (o.byte, o)) ↔ decodeOpcode op = some o := by
  rw [decodeOpcode_eq_some]
  simp [mem_allOpcodes, eq_comm]

/-- Settles O3. The thirteen rows listed are the pairs of a tag with its byte; the other columns follow tag by tag. -/
theorem opcodesMatchedLiterally : Obligations.OpcodesMatchedLiterally := by
  refine ⟨fun op o => mem_opcode_table.symm, fun o => ?_⟩
  cases o <;> rfl

end Sys2Proof.Machine

/-! Proofs of the statements about the engine (40_engine.md): HLT (R124), what clears `running` (R127), and the output
port (R117). -/

namespace Sys2Proof.Machine

variable {i : Instr} {s t : State}

/-! HLT (R124) -/

/-- HLT has no operand byte, so its fetch cannot raise once its opcode byte exists, at address 255 too. -/
theorem fetch_hlt (hpc : s.pc.toNat < 256) (hop : s.cell s.pc.toNat = 0x01#8) : fetch s = .ok .hlt := by
  have hd : decodeOpcode (s.cell s.pc.toNat) = some .hlt := decodeOpcode_eq_some.mpr hop
  rw [fetch_known hpc hd]
  rfl

theorem State.hostStart_of_mayStart (h : s.mayStart = true) : s.hostStart = (.accepted, { s with running := true }) :=
  if_pos h

/-- Settles O30. -/
theorem hltHalts : Obligations.HltHalts := by
  intro s
  have hexec : exec .hlt s = .next { s with running := false, pc := 0#9 } := rfl
  refine ⟨rfl, hexec, fun hr hpc hop => ?_, fun hf => State.engineStatus_eq_halted.mpr ⟨rfl, hf⟩, fun hf hl => ?_⟩
  · rw [step_of_fetch_ok hr (fetch_hlt (by omega) hop), hexec]
  · exact State.hostStart_of_mayStart (by simp [State.mayStart, hf, hl])

/-! What a step does to `running` and to the output events -/

/-- Of the instructions that complete, HLT alone writes `running` and PRN alone sends an event; one that raises only
takes its fault. -/
theorem exec_running_out_or_faults (e : exec i s = .next t) :
    ((i ≠ .hlt → t.running = s.running) ∧ ((∀ r, i ≠ .prn r) → t.out = s.out)) ∨ ∃ c, t = s.faulted c := by
  cases i with
  | hlt =>
    cases execHlt_cases e
    exact .inl ⟨fun h => absurd rfl h, fun _ => rfl⟩
  | prn r =>
    obtain ⟨_, rfl⟩ | ⟨_, rfl⟩ := execPrn_cases e
    exacts [.inl ⟨fun _ => rfl, fun h => absurd rfl (h r)⟩, .inr ⟨_, rfl⟩]
  | ldi r imm =>
    obtain ⟨_, rfl⟩ | ⟨_, rfl⟩ := execLdi_cases e
    exacts [.inl ⟨fun _ => rfl, fun _ => rfl⟩, .inr ⟨_, rfl⟩]
  | mul a b =>
    obtain ⟨_, _, rfl⟩ | ⟨_, rfl⟩ | ⟨_, _, rfl⟩ := execMul_cases e
    exacts [.inl ⟨fun _ => rfl, fun _ => rfl⟩, .inr ⟨_, rfl⟩, .inr ⟨_, rfl⟩]
  | push r =>
    obtain ⟨_, _, rfl⟩ | ⟨_, rfl⟩ | ⟨_, _, rfl⟩ := execPush_cases e
    exacts [.inl ⟨fun _ => rfl, fun _ => rfl⟩, .inr ⟨_, rfl⟩, .inr ⟨_, rfl⟩]
  | pop r =>
    obtain ⟨_, _, _, rfl⟩ | ⟨_, _, rfl⟩ | ⟨_, rfl⟩ | ⟨_, _, rfl⟩ | ⟨_, _, rfl⟩ := execPop_cases e
    exacts [.inl ⟨fun _ => rfl, fun _ => rfl⟩, .inl ⟨fun _ => rfl, fun _ => rfl⟩, .inr ⟨_, rfl⟩, .inr ⟨_, rfl⟩,
      .inr ⟨_, rfl⟩]
  | call r =>
    obtain ⟨_, _, _, rfl⟩ | ⟨_, rfl⟩ | ⟨_, _, rfl⟩ | ⟨_, _, _, rfl⟩ := execCall_cases e
    exacts [.inl ⟨fun _ => rfl, fun _ => rfl⟩, .inr ⟨_, rfl⟩, .inr ⟨_, rfl⟩, .inr ⟨_, rfl⟩]
  | ret =>
    obtain ⟨_, rfl⟩ | ⟨_, rfl⟩ := execRet_cases e
    exacts [.inl ⟨fun _ => rfl, fun _ => rfl⟩, .inr ⟨_, rfl⟩]
  | add a b =>
    obtain ⟨_, _, rfl⟩ | ⟨_, rfl⟩ | ⟨_, _, rfl⟩ := execAdd_cases e
    exacts [.inl ⟨fun _ => rfl, fun _ => rfl⟩, .inr ⟨_, rfl⟩, .inr ⟨_, rfl⟩]
  | cmp a b =>
    obtain ⟨_, _, rfl⟩ | ⟨_, rfl⟩ | ⟨_, _, rfl⟩ := execCmp_cases e
    exacts [.inl ⟨fun _ => rfl, fun _ => rfl⟩, .inr ⟨_, rfl⟩, .inr ⟨_, rfl⟩]
  | jmp r =>
    obtain ⟨_, rfl⟩ | ⟨_, rfl⟩ := execJmp_cases e
    exacts [.inl ⟨fun _ => rfl, fun _ => rfl⟩, .inr ⟨_, rfl⟩]
  | jne r =>
    obtain ⟨_, rfl⟩ | ⟨_, rfl⟩ := execJne_cases e
    exacts [.inl ⟨fun _ => rfl, fun _ => rfl⟩, .inr ⟨_, rfl⟩]
  | jeq r =>
    obtain ⟨_, rfl⟩ | ⟨_, rfl⟩ := execJeq_cases e
    exacts [.inl ⟨fun _ => rfl, fun _ => rfl⟩, .inr ⟨_, rfl⟩]

/-- The latch of a Ready state is empty, so a step that leaves it written took a fault and did nothing else (R226). -/
theorem step_faulted_of_isSome (hs : s.Ready) (h : step s = .next t) (hf : t.fault.isSome = true) :
    ∃ c, t = s.faulted c := by
  obtain ⟨hkeep, _⟩ | hc := step_completes_or_faults h
  · simp [hkeep, hs.2] at hf
  · exact hc

/-- A step that runs no HLT and latches no fault leaves `running` as it was. -/
theorem step_running_of_not_hlt (h : step s = .next t) (hhlt : fetch s ≠ .ok .hlt) (hf : t.fault = none) :
    t.running = s.running := by
  obtain ⟨_, ⟨i, hi, e⟩ | ⟨c, _, rfl⟩⟩ := step_eq_next h
  · obtain ⟨hkeep, _⟩ | ⟨c, rfl⟩ := exec_running_out_or_faults e
    · exact hkeep (by rintro rfl; exact hhlt hi)
    · simp at hf
  · simp at hf

/-- A step that runs no PRN sends no event: where it raises instead, the fault sends none either. -/
theorem step_out_of_not_prn (h : step s = .next t) (hprn : ∀ r, fetch s ≠ .ok (.prn r)) : t.out = s.out := by
  obtain ⟨_, ⟨i, hi, e⟩ | ⟨c, _, rfl⟩⟩ := step_eq_next h
  · obtain ⟨_, hkeep⟩ | ⟨c, rfl⟩ := exec_running_out_or_faults e
    · exact hkeep (by rintro r rfl; exact hprn r hi)
    · rfl
  · rfl

theorem step_hlt (hr : s.running = true) (hf : fetch s = .ok .hlt) (h : step s = .next t) : t.running = false := by
  rw [step_of_fetch_ok hr hf] at h
  cases execHlt_cases h
  rfl

/-- PRN of a register byte below 8 completes: the other case of its handler is a register byte from 8 on (R141). -/
theorem step_prn {r : Byte} (hr : s.running = true) (hlt : r.toNat < 8) (hf : fetch s = .ok (.prn r))
    (h : step s = .next t) : t = (s.emit (s.reg ⟨r.toNat, hlt⟩)).selectPc (.seq 2) := by
  rw [step_of_fetch_ok hr hf] at h
  obtain ⟨_, rfl⟩ | ⟨hge, _⟩ := execPrn_cases h
  · rfl
  · omega

/-- Settles O18. Were neither the case, `running` would be 1 as before the step. -/
theorem onlyHltAndFaultsStop : Obligations.OnlyHltAndFaultsStop := by
  intro s t hs h
  constructor
  · intro ht
    by_contra! hno
    obtain ⟨hhlt, hf⟩ := hno
    have hkeep : t.running = s.running := step_running_of_not_hlt h hhlt (by simpa using hf)
    simp [ht, hs.1] at hkeep
  · rintro (hhlt | hf)
    · exact step_hlt hs.1 hhlt h
    · obtain ⟨c, rfl⟩ := step_faulted_of_isSome hs h hf
      rfl

/-- Settles O22. -/
theorem outputEvents : Obligations.OutputEvents := by
  intro s t hs h
  constructor
  · intro r hlt hf
    cases step_prn hs.1 hlt hf h
    exact ⟨hs.2, rfl⟩
  · rintro (hprn | hf)
    · exact step_out_of_not_prn h hprn
    · obtain ⟨c, rfl⟩ := step_faulted_of_isSome hs h hf
      rfl

end Sys2Proof.Machine

/-! Proofs of the statements about LDI and PRN (41_data_movement.md R140, R141), from three shared facts: a handler that
checks its register byte goes on or takes REGISTER_INDEX (R15), and a fetch past the end takes OPERAND_ADDRESS 256. -/

namespace Sys2Proof.Machine

variable {r imm : Byte} {s : State}

/-! What every instruction with a register byte or an operand byte shares -/

theorem commit_regIdx_bind_of_lt (h : r.toNat < 8) (f : RegIndex → Except FaultCause State) :
    s.commit (regIdx r >>= f) = s.commit (f ⟨r.toNat, h⟩) := by
  rw [regIdx_of_lt h]
  rfl

/-- The register byte is checked before anything else, so the rest of the handler does not matter (R122). -/
theorem commit_regIdx_bind_of_ge (h : 8 ≤ r.toNat) (f : RegIndex → Except FaultCause State) :
    s.commit (regIdx r >>= f) = .next (s.faulted (.outOfBounds .registerIndex r.toNat)) := by
  rw [regIdx_of_ge h]
  rfl

/-- An instruction whose last operand byte lies past the end raises at the first byte that does not exist: 256, wherever
the instruction starts (R65). -/
theorem step_operand_past_end {o : Opcode} (hr : s.running = true) (hpc : s.pc.toNat < 256)
    (hend : 256 ≤ s.pc.toNat + o.operandCount) (hop : s.cell s.pc.toNat = o.byte) :
    step s = .next (s.faulted (.outOfBounds .operandAddress 256)) := by
  have hfetch := fetch_operand_past_end (k := 256 - s.pc.toNat) hpc (decodeOpcode_eq_some.mpr hop) (by omega) (by omega)
    (by omega) (by omega)
  rw [Nat.add_sub_cancel' hpc.le] at hfetch
  exact step_of_fetch_error hr hfetch

/-! LDI (R140) -/

theorem exec_ldi_of_lt (h : r.toNat < 8) :
    exec (.ldi r imm) s = .next ((s.setReg ⟨r.toNat, h⟩ imm).selectPc (.seq 3)) :=
  commit_regIdx_bind_of_lt h _

theorem exec_ldi_of_ge (h : 8 ≤ r.toNat) :
    exec (.ldi r imm) s = .next (s.faulted (.outOfBounds .registerIndex r.toNat)) :=
  commit_regIdx_bind_of_ge h _

/-- Settles O31. From 254 the second operand byte is missing and from 255 the first; both are address 256. -/
theorem ldiLoadsImmediate : Obligations.LdiLoadsImmediate := by
  refine fun s r imm => ⟨rfl, exec_ldi_of_lt, exec_ldi_of_ge, fun hr hpc hop => ?_⟩
  have hcount : Opcode.ldi.operandCount = 2 := rfl
  exact step_operand_past_end (o := .ldi) hr (by omega) (by omega) hop

/-! PRN (R141) -/

theorem exec_prn_of_lt (h : r.toNat < 8) :
    exec (.prn r) s = .next ((s.emit (s.reg ⟨r.toNat, h⟩)).selectPc (.seq 2)) :=
  commit_regIdx_bind_of_lt h _

theorem exec_prn_of_ge (h : 8 ≤ r.toNat) :
    exec (.prn r) s = .next (s.faulted (.outOfBounds .registerIndex r.toNat)) :=
  commit_regIdx_bind_of_ge h _

/-- Settles O32. -/
theorem prnEmits : Obligations.PrnEmits := by
  refine fun s r => ⟨rfl, exec_prn_of_lt, exec_prn_of_ge, fun hr hpc hop => ?_⟩
  have hcount : Opcode.prn.operandCount = 1 := rfl
  exact step_operand_past_end (o := .prn) hr (by omega) (by omega) hop

end Sys2Proof.Machine

/-! Proofs of the statements about ADD and MUL (42_arithmetic.md R152, R153). Both check `a` before `b` (R122), write one
result modulo 256 (R154) into register `a`, and have two operand bytes. -/

namespace Sys2Proof.Machine

variable {a b : Byte} {s : State}

/-! What every instruction with two register bytes shares -/

theorem commit_regPair_bind_of_lt (ha : a.toNat < 8) (hb : b.toNat < 8)
    (f : RegIndex × RegIndex → Except FaultCause State) :
    s.commit (regPair a b >>= f) = s.commit (f (⟨a.toNat, ha⟩, ⟨b.toNat, hb⟩)) := by
  rw [regPair_of_lt ha hb]
  rfl

/-- `a` is checked first, so neither `b` nor the rest of the handler matters (R122). -/
theorem commit_regPair_bind_of_ge_left (ha : 8 ≤ a.toNat) (f : RegIndex × RegIndex → Except FaultCause State) :
    s.commit (regPair a b >>= f) = .next (s.faulted (.outOfBounds .registerIndex a.toNat)) := by
  rw [regPair_of_ge_left b ha]
  rfl

theorem commit_regPair_bind_of_ge_right (ha : a.toNat < 8) (hb : 8 ≤ b.toNat)
    (f : RegIndex × RegIndex → Except FaultCause State) :
    s.commit (regPair a b >>= f) = .next (s.faulted (.outOfBounds .registerIndex b.toNat)) := by
  rw [regPair_of_ge_right ha hb]
  rfl

/-- From 254 the second operand byte is missing and from 255 the first; both are address 256. -/
theorem step_two_operands_past_end {o : Opcode} (ho : o.operandCount = 2) (hr : s.running = true)
    (hpc : s.pc.toNat = 254 ∨ s.pc.toNat = 255) (hop : s.cell s.pc.toNat = o.byte) :
    step s = .next (s.faulted (.outOfBounds .operandAddress 256)) :=
  step_operand_past_end hr (by omega) (by omega) hop

/-- Keeping the low 8 bits is reduction modulo 256 (R154). -/
theorem toNat_narrow (n : Nat) : (narrow n).toNat = n % 256 := BitVec.toNat_ofNat n 8

/-! ADD (R152) -/

theorem exec_add_of_lt (ha : a.toNat < 8) (hb : b.toNat < 8) :
    exec (.add a b) s = .next ((s.setReg ⟨a.toNat, ha⟩
      (narrow (s.regs[a.toNat].toNat + s.regs[b.toNat].toNat))).selectPc (.seq 3)) :=
  commit_regPair_bind_of_lt ha hb _

theorem exec_add_of_ge_left (ha : 8 ≤ a.toNat) :
    exec (.add a b) s = .next (s.faulted (.outOfBounds .registerIndex a.toNat)) :=
  commit_regPair_bind_of_ge_left ha _

theorem exec_add_of_ge_right (ha : a.toNat < 8) (hb : 8 ≤ b.toNat) :
    exec (.add a b) s = .next (s.faulted (.outOfBounds .registerIndex b.toNat)) :=
  commit_regPair_bind_of_ge_right ha hb _

/-- Settles O33. The value written is the narrowed sum. -/
theorem addWraps : Obligations.AddWraps :=
  fun _ _ _ => ⟨rfl, fun ha hb => ⟨_, toNat_narrow _, exec_add_of_lt ha hb⟩, exec_add_of_ge_left, exec_add_of_ge_right,
    step_two_operands_past_end (o := .add) rfl⟩

/-! MUL (R153) -/

theorem exec_mul_of_lt (ha : a.toNat < 8) (hb : b.toNat < 8) :
    exec (.mul a b) s = .next ((s.setReg ⟨a.toNat, ha⟩
      (narrow (s.regs[a.toNat].toNat * s.regs[b.toNat].toNat))).selectPc (.seq 3)) :=
  commit_regPair_bind_of_lt ha hb _

theorem exec_mul_of_ge_left (ha : 8 ≤ a.toNat) :
    exec (.mul a b) s = .next (s.faulted (.outOfBounds .registerIndex a.toNat)) :=
  commit_regPair_bind_of_ge_left ha _

theorem exec_mul_of_ge_right (ha : a.toNat < 8) (hb : 8 ≤ b.toNat) :
    exec (.mul a b) s = .next (s.faulted (.outOfBounds .registerIndex b.toNat)) :=
  commit_regPair_bind_of_ge_right ha hb _

/-- Settles O34. The value written is the narrowed product. -/
theorem mulWraps : Obligations.MulWraps :=
  fun _ _ _ => ⟨rfl, fun ha hb => ⟨_, toNat_narrow _, exec_mul_of_lt ha hb⟩, exec_mul_of_ge_left, exec_mul_of_ge_right,
    step_two_operands_past_end (o := .mul) rfl⟩

end Sys2Proof.Machine


/-! Proofs of the statements about the stack (43_stack.md): `Dec` and `Inc` (R170, R171), PUSH (R172) and POP (R173).
PUSH and POP check the register byte first (R122), so each is what its handler does with a register, from there on. -/

namespace Sys2Proof.Machine

variable {r sp : Byte} {s : State}

/-! The stack pointer unit (R170, R171) -/

/-- An increment that raises nothing does not wrap: the only value it would wrap from is 255, where it raises (R171). -/
theorem toNat_of_spInc_ok {v : Byte} (h : spInc sp = .ok v) : v.toNat = sp.toNat + 1 := by
  by_cases htop : sp = 255#8
  · subst htop
    cases h
  · rw [spInc_of_ne htop] at h
    cases h
    bv_omega

/-- Settles O45. -/
theorem stackPointerNeverWraps : Obligations.StackPointerNeverWraps :=
  ⟨spDec_zero, fun _ h => ⟨_, spDec_of_ne h, toNat_of_spDec_ok (spDec_of_ne h)⟩,
    spInc_top, fun _ h => ⟨_, spInc_of_ne h, toNat_of_spInc_ok (spInc_of_ne h)⟩⟩

/-! What the instructions that move the stack pointer share -/

theorem commit_spDec_bind_of_ne (h : sp ≠ 0#8) (f : Byte → Except FaultCause State) :
    s.commit (spDec sp >>= f) = s.commit (f (sp - 1#8)) := by
  rw [spDec_of_ne h]
  rfl

theorem commit_spDec_bind_of_zero (h : sp = 0#8) (f : Byte → Except FaultCause State) :
    s.commit (spDec sp >>= f) = .next (s.faulted (.outOfBounds .spDecrement 0)) := by
  rw [h, spDec_zero]
  rfl

theorem commit_spInc_bind_of_ne (h : sp ≠ 255#8) (f : Byte → Except FaultCause State) :
    s.commit (spInc sp >>= f) = s.commit (f (sp + 1#8)) := by
  rw [spInc_of_ne h]
  rfl

theorem commit_spInc_bind_of_top (h : sp = 255#8) (f : Byte → Except FaultCause State) :
    s.commit (spInc sp >>= f) = .next (s.faulted (.outOfBounds .spIncrement 255)) := by
  rw [h, spInc_top]
  rfl

/-- The one operand byte of an instruction at 255 would be at address 256. -/
theorem step_one_operand_past_end {o : Opcode} (ho : o.operandCount = 1) (hr : s.running = true)
    (hpc : s.pc.toNat = 255) (hop : s.cell s.pc.toNat = o.byte) :
    step s = .next (s.faulted (.outOfBounds .operandAddress 256)) :=
  step_operand_past_end hr (by omega) (by omega) hop

/-! PUSH (R172) -/

/-- A register read after the write to the stack pointer: R7 gives the value written (D17). -/
theorem State.reg_setSp_of_lt (s : State) (v : Byte) (h : r.toNat < 8) :
    (s.setSp v).reg ⟨r.toNat, h⟩ = if r.toNat = 7 then v else s.regs[r.toNat] := by
  by_cases h7 : r.toNat = 7
  · have hsp : (⟨r.toNat, h⟩ : RegIndex) = 7 := Fin.ext h7
    rw [if_pos h7, hsp, State.reg_setSp_seven]
  · have hne : Config.spIndex ≠ ⟨r.toNat, h⟩ := fun e => h7 (congrArg Fin.val e).symm
    rw [if_neg h7]
    exact State.reg_setReg_ne s v hne

/-- The state after a PUSH that raises nothing. -/
def State.pushed (s : State) (r : RegIndex) : State :=
  let sp := s.sp - 1#8
  ((s.setSp sp).memWrite sp ((s.setSp sp).reg r)).selectPc (.seq 2)

theorem exec_push_of_sp_ne_zero (h : r.toNat < 8) (hsp : s.sp ≠ 0#8) :
    exec (.push r) s = .next (s.pushed ⟨r.toNat, h⟩) :=
  (commit_regIdx_bind_of_lt h _).trans (commit_spDec_bind_of_ne hsp _)

theorem exec_push_of_ge (h : 8 ≤ r.toNat) :
    exec (.push r) s = .next (s.faulted (.outOfBounds .registerIndex r.toNat)) :=
  commit_regIdx_bind_of_ge h _

theorem exec_push_of_sp_eq_zero (h : r.toNat < 8) (hsp : s.sp = 0#8) :
    exec (.push r) s = .next (s.faulted (.outOfBounds .spDecrement 0)) :=
  (commit_regIdx_bind_of_lt h _).trans (commit_spDec_bind_of_zero hsp _)

/-- PUSH stores one byte, in the cell below the old stack pointer. -/
theorem State.cell_pushed (hwf : Memory.Wf s.memory) (hsp : s.sp ≠ 0#8) (h : r.toNat < 8) (x : Nat) :
    (s.pushed ⟨r.toNat, h⟩).cell x =
      if x = s.sp.toNat - 1 then (if r.toNat = 7 then s.sp - 1#8 else s.regs[r.toNat]) else s.cell x := by
  have haddr : (s.sp - 1#8).toNat = s.sp.toNat - 1 := by
    have := toNat_of_spDec_ok (spDec_of_ne hsp)
    omega
  rw [← haddr, ← s.reg_setSp_of_lt (s.sp - 1#8) h]
  exact Memory.read_write hwf _ x _

/-- Settles O36. The byte stored is read after the decrement, which only PUSH R7 sees. -/
theorem pushStores : Obligations.PushStores := by
  refine fun s r hwf => ⟨rfl, fun h hsp => ⟨_, exec_push_of_sp_ne_zero h hsp, rfl, ?_, fun x hx => ?_⟩, exec_push_of_ge,
    exec_push_of_sp_eq_zero, step_one_operand_past_end (o := .push) rfl⟩
  · rw [State.cell_pushed hwf hsp, if_pos rfl]
  · rw [State.cell_pushed hwf hsp, if_neg hx]

/-! POP (R173) -/

/-- POP into a register other than R7: the popped byte goes there and the stack pointer is incremented. -/
theorem exec_pop_of_ne_seven (h : r.toNat < 8) (h7 : r.toNat ≠ 7) :
    exec (.pop r) s = s.commit (spInc s.sp >>= fun sp =>
      .ok (((s.setReg ⟨r.toNat, h⟩ (s.cell s.sp.toNat)).setSp sp).selectPc (.seq 2))) := by
  have hne : (⟨r.toNat, h⟩ : RegIndex) ≠ Config.spIndex := fun e => h7 (congrArg Fin.val e)
  exact (commit_regIdx_bind_of_lt h _).trans (congrArg s.commit (if_neg hne))

/-- POP into R7: the popped byte itself is incremented (D17). -/
theorem exec_pop_of_eq_seven (h7 : r.toNat = 7) :
    exec (.pop r) s = s.commit (spInc (s.cell s.sp.toNat) >>= fun sp => .ok ((s.setSp sp).selectPc (.seq 2))) := by
  have h : r.toNat < 8 := by omega
  have hsp : (⟨r.toNat, h⟩ : RegIndex) = Config.spIndex := Fin.ext h7
  exact (commit_regIdx_bind_of_lt h _).trans (congrArg s.commit (if_pos hsp))

theorem exec_pop_of_ge (h : 8 ≤ r.toNat) :
    exec (.pop r) s = .next (s.faulted (.outOfBounds .registerIndex r.toNat)) :=
  commit_regIdx_bind_of_ge h _

/-- Settles O37. What is incremented, the stack pointer or the popped byte, is also what raises at 255. -/
theorem popLoads : Obligations.PopLoads := by
  refine fun s r => ⟨rfl, fun h h7 hsp => ?_, fun h7 hv => ?_, exec_pop_of_ge, fun h hsp => ?_, fun h7 hv => ?_,
    step_one_operand_past_end (o := .pop) rfl⟩
  · exact (exec_pop_of_ne_seven h h7).trans (commit_spInc_bind_of_ne hsp _)
  · exact (exec_pop_of_eq_seven h7).trans (commit_spInc_bind_of_ne hv _)
  · exact (exec_pop_of_ne_seven (by omega) (by omega)).trans (commit_spInc_bind_of_top hsp _)
  · exact (exec_pop_of_eq_seven h7).trans (commit_spInc_bind_of_top hv _)

end Sys2Proof.Machine

/-! Proofs of the statements about the control transfers CALL, RET, JMP, JEQ and JNE (44_control.md R190, R191, R193 to
R195). Each that jumps sets `pc` to one byte, a register's value or a stack byte, which the 9-bit `pc` holds exactly. -/

namespace Sys2Proof.Machine

variable {r : Byte} {s : State}

/-! What the control transfers share -/

theorem State.toNat_pc_selectPc_target (s : State) (v : Byte) : (s.selectPc (.target v)).pc.toNat = v.toNat :=
  BitVec.toNat_setWidth_of_le (by decide)

/-- An instruction with no operand byte is fetched whole with its opcode byte, at address 255 too. -/
theorem fetch_of_format_n {o : Opcode} (ho : o.format = .n) (hpc : s.pc.toNat < 256)
    (hop : s.cell s.pc.toNat = o.byte) : fetch s = .ok (o.assemble 0#8 0#8) := by
  rw [fetch_known hpc (decodeOpcode_eq_some.mpr hop), ho]
  rfl

/-! CALL (R190) -/

/-- The state after a CALL that raises nothing: the target is read after the decrement (D17). -/
def State.called (s : State) (r : RegIndex) : State :=
  let sp := s.sp - 1#8
  ((s.setSp sp).memWrite sp (narrow (s.pc.toNat + 2))).selectPc (.target ((s.setSp sp).reg r))

/-- SP_DECREMENT out of the way, CALL checks the return address alone. -/
theorem exec_call_of_sp_ne_zero (h : r.toNat < 8) (hsp : s.sp ≠ 0#8) :
    exec (.call r) s = if 256 ≤ s.pc.toNat + 2
      then .next (s.faulted (.outOfBounds .returnAddress (s.pc.toNat + 2)))
      else .next (s.called ⟨r.toNat, h⟩) :=
  calc exec (.call r) s
    _ = s.commit _ := (commit_regIdx_bind_of_lt h _).trans (commit_spDec_bind_of_ne hsp _)
    _ = _ := apply_ite s.commit _ _ _

theorem exec_call_of_sp_eq_zero (h : r.toNat < 8) (hsp : s.sp = 0#8) :
    exec (.call r) s = .next (s.faulted (.outOfBounds .spDecrement 0)) :=
  (commit_regIdx_bind_of_lt h _).trans (commit_spDec_bind_of_zero hsp _)

theorem exec_call_of_ge (h : 8 ≤ r.toNat) :
    exec (.call r) s = .next (s.faulted (.outOfBounds .registerIndex r.toNat)) :=
  commit_regIdx_bind_of_ge h _

/-- A decremented stack pointer's value, where the decrement does not raise. -/
theorem toNat_sub_one_of_ne_zero {sp : Byte} (h : sp ≠ 0#8) : (sp - 1#8).toNat = sp.toNat - 1 :=
  Nat.eq_sub_of_add_eq (toNat_of_spDec_ok (spDec_of_ne h))

theorem State.toNat_pc_called (hsp : s.sp ≠ 0#8) (h : r.toNat < 8) :
    (s.called ⟨r.toNat, h⟩).pc.toNat = if r.toNat = 7 then s.sp.toNat - 1 else s.regs[r.toNat].toNat := by
  rw [State.called, State.toNat_pc_selectPc_target, State.reg_setSp_of_lt, apply_ite BitVec.toNat,
    toNat_sub_one_of_ne_zero hsp]

/-- CALL stores one byte, the return address, in the cell below the old stack pointer. -/
theorem State.cell_called (hwf : Memory.Wf s.memory) (hsp : s.sp ≠ 0#8) (q : RegIndex) (x : Nat) :
    (s.called q).cell x = if x = s.sp.toNat - 1 then narrow (s.pc.toNat + 2) else s.cell x := by
  rw [← toNat_sub_one_of_ne_zero hsp]
  exact Memory.read_write hwf _ x _

/-- Settles O38. The return address is stored unreduced because `pc + 2` is below 256. -/
theorem callPushesReturn : Obligations.CallPushesReturn := by
  refine fun s r hwf => ⟨rfl, fun h hsp hpc => ⟨s.called ⟨r.toNat, h⟩, ?_, rfl, State.toNat_pc_called hsp h, ?_,
    fun x hx => ?_⟩, exec_call_of_ge, exec_call_of_sp_eq_zero, fun h hsp hpc => ?_,
    step_one_operand_past_end (o := .call) rfl⟩
  · rw [exec_call_of_sp_ne_zero h hsp, if_neg (by omega)]
  · rw [State.cell_called hwf hsp, if_pos rfl, toNat_narrow, Nat.mod_eq_of_lt hpc]
  · rw [State.cell_called hwf hsp, if_neg hx]
  · rw [exec_call_of_sp_ne_zero h hsp, if_pos (by omega), hpc]

/-! RET (R191) -/

theorem exec_ret_of_sp_ne_top (hsp : s.sp ≠ 255#8) :
    exec .ret s = .next ((s.setSp (s.sp + 1#8)).selectPc (.target (s.cell s.sp.toNat))) :=
  commit_spInc_bind_of_ne hsp _

theorem exec_ret_of_sp_eq_top (hsp : s.sp = 255#8) :
    exec .ret s = .next (s.faulted (.outOfBounds .spIncrement 255)) :=
  commit_spInc_bind_of_top hsp _

/-- Settles O39. -/
theorem retPopsTarget : Obligations.RetPopsTarget := by
  refine fun s => ⟨rfl, fun hsp => ⟨_, exec_ret_of_sp_ne_top hsp, rfl, State.toNat_pc_selectPc_target _ _⟩,
    exec_ret_of_sp_eq_top, fun hr hpc hop => ?_⟩
  exact step_of_fetch_ok hr (fetch_of_format_n (o := .ret) rfl (by omega) hop)

/-! JMP (R193) -/

theorem exec_jmp_of_lt (h : r.toNat < 8) :
    exec (.jmp r) s = .next (s.selectPc (.target (s.reg ⟨r.toNat, h⟩))) :=
  commit_regIdx_bind_of_lt h _

theorem exec_jmp_of_ge (h : 8 ≤ r.toNat) :
    exec (.jmp r) s = .next (s.faulted (.outOfBounds .registerIndex r.toNat)) :=
  commit_regIdx_bind_of_ge h _

/-- Settles O40. -/
theorem jmpJumps : Obligations.JmpJumps :=
  fun _ _ => ⟨rfl, fun h => ⟨_, exec_jmp_of_lt h, rfl, State.toNat_pc_selectPc_target _ _⟩, exec_jmp_of_ge,
    step_one_operand_past_end (o := .jmp) rfl⟩

/-! JEQ and JNE (R194, R195) -/

@[simp] theorem branchSelect_true (v : Byte) : branchSelect true v = .target v := rfl

@[simp] theorem branchSelect_false (v : Byte) : branchSelect false v = .seq 2 := rfl

theorem exec_jeq_of_lt (h : r.toNat < 8) :
    exec (.jeq r) s = .next (s.selectPc (branchSelect s.flags.e (s.reg ⟨r.toNat, h⟩))) :=
  commit_regIdx_bind_of_lt h _

/-- The register byte is checked whether or not the branch would be taken (D6). -/
theorem exec_jeq_of_ge (h : 8 ≤ r.toNat) :
    exec (.jeq r) s = .next (s.faulted (.outOfBounds .registerIndex r.toNat)) :=
  commit_regIdx_bind_of_ge h _

/-- Settles O41. -/
theorem jeqBranchesOnEqual : Obligations.JeqBranchesOnEqual := by
  refine fun s r => ⟨rfl, fun h he => ⟨s.selectPc (.target (s.reg ⟨r.toNat, h⟩)), ?_, rfl,
    State.toNat_pc_selectPc_target _ _⟩, fun h he => ?_, exec_jeq_of_ge, step_one_operand_past_end (o := .jeq) rfl⟩
  · rw [exec_jeq_of_lt h, he, branchSelect_true]
  · rw [exec_jeq_of_lt h, he, branchSelect_false]
    rfl

theorem exec_jne_of_lt (h : r.toNat < 8) :
    exec (.jne r) s = .next (s.selectPc (branchSelect (!s.flags.e) (s.reg ⟨r.toNat, h⟩))) :=
  commit_regIdx_bind_of_lt h _

/-- The register byte is checked whether or not the branch would be taken (D6). -/
theorem exec_jne_of_ge (h : 8 ≤ r.toNat) :
    exec (.jne r) s = .next (s.faulted (.outOfBounds .registerIndex r.toNat)) :=
  commit_regIdx_bind_of_ge h _

/-- Settles O42. -/
theorem jneBranchesOnUnequal : Obligations.JneBranchesOnUnequal := by
  refine fun s r => ⟨rfl, fun h he => ⟨s.selectPc (.target (s.reg ⟨r.toNat, h⟩)), ?_, rfl,
    State.toNat_pc_selectPc_target _ _⟩, fun h he => ?_, exec_jne_of_ge, step_one_operand_past_end (o := .jne) rfl⟩
  · rw [exec_jne_of_lt h, he, Bool.not_false, branchSelect_true]
  · rw [exec_jne_of_lt h, he, Bool.not_true, branchSelect_false]
    rfl

end Sys2Proof.Machine

/-! Proofs of the statements about faults (60_exceptions.md): which one a step raises (R225), what taking it does (R226),
the Faulted state (R227), and what `status()` tells apart (R229). -/

namespace Sys2Proof.Machine

variable {s t : State}

/-! The Faulted state and a taken fault (R226, R227) -/

theorem State.hostStart_of_fault (h : s.fault ≠ none) : s.hostStart = (.refused, s) :=
  if_neg (by simp [State.mayStart, h])

/-- Settles O11. Whether an engine is Faulted depends on `running` and the latch alone, and a load writes neither. -/
theorem faultedLeftOnlyByReset : Obligations.FaultedLeftOnlyByReset := by
  intro s hs
  obtain ⟨hr, hf⟩ := State.engineStatus_eq_faulted.mp hs
  refine ⟨fun t h => ?_, State.hostStart_of_fault hf, fun words => ⟨?_, s.hostLoad_fault words⟩, rfl⟩
  · exact Bool.false_ne_true (hr.symm.trans (step_eq_next h).1)
  · rw [State.engineStatus_eq_faulted, State.hostLoad_running, State.hostLoad_fault]
    exact ⟨hr, hf⟩

/-- Settles O16. A step of a Ready engine that leaves the latch written has done nothing but take a fault, and the record
in the latch is the one that taking it wrote. -/
theorem faultsArePrecise : Obligations.FaultsArePrecise := by
  intro s t r hs h hf
  obtain ⟨c, rfl⟩ := step_faulted_of_isSome hs h (by rw [hf]; rfl)
  cases hf
  exact ⟨rfl, rfl, s.hostStatus_faulted c, rfl⟩

/-! `status()` (R229) -/

theorem BoundsKind.code_ne_zero (k : BoundsKind) : k.code ≠ 0 := by cases k <;> decide

theorem BoundsKind.code_injective : Function.Injective BoundsKind.code := by
  intro j k
  cases j <;> cases k <;> decide

/-- The detail alone tells every cause from every other: its sub-kind is 0 only for the causes that are not
`OutOfBounds`, and of these one records a number and the other a tag (R221 to R223). -/
theorem FaultCause.detail_injective : Function.Injective FaultCause.detail := by
  intro c d h
  cases c with
  | unknownOpcode op =>
    cases d with
    | unknownOpcode op' => simpa [FaultCause.detail, BitVec.toNat_inj] using h
    | outOfBounds k v => exact absurd (congrArg Prod.fst h).symm k.code_ne_zero
    | unsupportedOperation tag => simp [FaultCause.detail] at h
  | outOfBounds k v =>
    cases d with
    | unknownOpcode op => exact absurd (congrArg Prod.fst h) k.code_ne_zero
    | outOfBounds k' v' => simpa [FaultCause.detail, BoundsKind.code_injective.eq_iff] using h
    | unsupportedOperation tag => exact absurd (congrArg Prod.fst h) k.code_ne_zero
  | unsupportedOperation tag =>
    cases d with
    | unknownOpcode op => simp [FaultCause.detail] at h
    | outOfBounds k v => exact absurd (congrArg Prod.fst h).symm k.code_ne_zero
    | unsupportedOperation tag' => simpa [FaultCause.detail] using h

theorem State.hostStatus_running (s : State) : s.hostStatus.running = s.running := by
  unfold State.hostStatus
  cases s.fault <;> rfl

theorem State.hostStatus_of_fault {r : FaultRecord} (h : s.fault = some r) :
    s.hostStatus = ⟨s.running, r.cause.code, r.pc.toNat, r.cause.detail⟩ := by
  simp only [State.hostStatus, h]

/-- Settles O54. The kind tells an empty latch from a written one, the detail the causes, and the pc is read whole. -/
theorem statusDistinguishesFaults : Obligations.StatusDistinguishesFaults := by
  intro s t h
  refine ⟨by rw [← s.hostStatus_running, h, t.hostStatus_running], ?_⟩
  have hnone : s.fault = none ↔ t.fault = none := by
    rw [← State.hostStatus_kind_eq_zero, h, State.hostStatus_kind_eq_zero]
  cases hs : s.fault with
  | none => exact (hnone.mp hs).symm
  | some r =>
    obtain ⟨q, ht⟩ := Option.ne_none_iff_exists'.mp fun ht => by simp [hnone.mpr ht] at hs
    rw [State.hostStatus_of_fault hs, State.hostStatus_of_fault ht, StatusReport.mk.injEq] at h
    obtain ⟨-, -, hpc, hdetail⟩ := h
    rw [ht, Option.some_inj, FaultRecord.mk.injEq]
    exact ⟨FaultCause.detail_injective hdetail, BitVec.eq_of_toNat_eq hpc⟩

/-! The fault a step raises (R225). A handler is a row of checks and then its writes; each rule below peels one check off
a handler and off the fault the handler is said to raise. -/

/-- `r` is a next state in whose latch stands the given fault of `s`, or nothing where none is given. -/
def Raises (s : State) (r : StepResult) (f : Option FaultCause) : Prop :=
  ∃ t, r = .next t ∧ t.fault = f.map fun c => ⟨c, s.pc⟩

theorem raises_faulted (s : State) (c : FaultCause) : Raises s (.next (s.faulted c)) (some c) := ⟨_, rfl, rfl⟩

theorem raises_commit_ok (h : t.fault = none) : Raises s (s.commit (.ok t)) none := ⟨t, rfl, h⟩

theorem raises_regIdx {r : Byte} {f : RegIndex → Except FaultCause State} {o : Option FaultCause}
    (h : ∀ q : RegIndex, q.val = r.toNat → Raises s (s.commit (f q)) o) :
    Raises s (s.commit (regIdx r >>= f))
      (if 8 ≤ r.toNat then some (.outOfBounds .registerIndex r.toNat) else o) := by
  split
  · next hr => rw [commit_regIdx_bind_of_ge hr]; exact raises_faulted s _
  · next hr => rw [commit_regIdx_bind_of_lt (Nat.not_le.mp hr)]; exact h _ rfl

theorem regPair_bind (a b : Byte) (f : RegIndex × RegIndex → Except FaultCause State) :
    (regPair a b >>= f) = regIdx a >>= fun ra => regIdx b >>= fun rb => f (ra, rb) := by
  unfold regPair
  cases regIdx a <;> cases regIdx b <;> rfl

/-- The check of two register bytes is the check of `a` and then that of `b` (R122). -/
theorem raises_regPair {a b : Byte} {f : RegIndex × RegIndex → Except FaultCause State} {o : Option FaultCause}
    (h : ∀ p, Raises s (s.commit (f p)) o) :
    Raises s (s.commit (regPair a b >>= f))
      (if 8 ≤ a.toNat then some (.outOfBounds .registerIndex a.toNat)
        else if 8 ≤ b.toNat then some (.outOfBounds .registerIndex b.toNat) else o) := by
  rw [regPair_bind]
  exact raises_regIdx fun _ _ => raises_regIdx fun _ _ => h _

theorem raises_spDec {sp : Byte} {f : Byte → Except FaultCause State} {o : Option FaultCause}
    (h : ∀ v, Raises s (s.commit (f v)) o) :
    Raises s (s.commit (spDec sp >>= f)) (if sp.toNat = 0 then some (.outOfBounds .spDecrement 0) else o) := by
  split
  · next h0 => rw [commit_spDec_bind_of_zero (BitVec.eq_of_toNat_eq h0)]; exact raises_faulted s _
  · next h0 => rw [commit_spDec_bind_of_ne fun e => h0 (congrArg BitVec.toNat e)]; exact h _

theorem raises_spInc {sp : Byte} {f : Byte → Except FaultCause State} {o : Option FaultCause}
    (h : ∀ v, Raises s (s.commit (f v)) o) :
    Raises s (s.commit (spInc sp >>= f)) (if sp.toNat = 255 then some (.outOfBounds .spIncrement 255) else o) := by
  split
  · next htop => rw [commit_spInc_bind_of_top (BitVec.eq_of_toNat_eq htop)]; exact raises_faulted s _
  · next htop => rw [commit_spInc_bind_of_ne fun e => htop (congrArg BitVec.toNat e)]; exact h _

/-- The fault a fetched instruction raises: its register bytes in operand order, then its own checks (R224). -/
def State.handlerFault (s : State) : Instr → Option FaultCause
  | .hlt => none
  | .ldi r _ | .prn r | .jmp r | .jne r | .jeq r =>
    if 8 ≤ r.toNat then some (.outOfBounds .registerIndex r.toNat) else none
  | .mul a b | .add a b | .cmp a b =>
    if 8 ≤ a.toNat then some (.outOfBounds .registerIndex a.toNat)
    else if 8 ≤ b.toNat then some (.outOfBounds .registerIndex b.toNat) else none
  | .push r =>
    if 8 ≤ r.toNat then some (.outOfBounds .registerIndex r.toNat)
    else if s.sp.toNat = 0 then some (.outOfBounds .spDecrement 0) else none
  | .pop r =>
    if 8 ≤ r.toNat then some (.outOfBounds .registerIndex r.toNat)
    else if (if r.toNat = 7 then s.cell s.sp.toNat else s.sp).toNat = 255 then some (.outOfBounds .spIncrement 255)
    else none
  | .call r =>
    if 8 ≤ r.toNat then some (.outOfBounds .registerIndex r.toNat)
    else if s.sp.toNat = 0 then some (.outOfBounds .spDecrement 0)
    else if 256 ≤ s.pc.toNat + 2 then some (.outOfBounds .returnAddress (s.pc.toNat + 2)) else none
  | .ret => if s.sp.toNat = 255 then some (.outOfBounds .spIncrement 255) else none

/-- Each check of a handler is the check at the same place of `handlerFault`. -/
theorem raises_exec (i : Instr) (h : s.fault = none) : Raises s (exec i s) (s.handlerFault i) := by
  have completes {t : State} (ht : t.fault = s.fault) : Raises s (s.commit (.ok t)) none := raises_commit_ok (ht.trans h)
  cases i with
  | hlt => exact completes rfl
  | ldi | prn | jmp | jne | jeq => exact raises_regIdx fun _ _ => completes rfl
  | mul | add | cmp => exact raises_regPair fun _ => completes rfl
  | push => exact raises_regIdx fun _ _ => raises_spDec fun _ => completes rfl
  | pop r =>
    refine raises_regIdx fun q hq => ?_
    by_cases h7 : r.toNat = 7
    · have hsp : q = Config.spIndex := Fin.ext (hq.trans h7)
      rw [if_pos hsp, if_pos h7]
      exact raises_spInc fun _ => completes rfl
    · have hne : q ≠ Config.spIndex := fun e => h7 (hq.symm.trans (congrArg Fin.val e))
      rw [if_neg hne, if_neg h7]
      exact raises_spInc fun _ => completes rfl
  | call r =>
    refine raises_regIdx fun q _ => raises_spDec fun v => ?_
    rw [apply_ite s.commit]
    split
    · exact raises_faulted s _
    · exact completes rfl
  | ret => exact raises_spInc fun _ => completes rfl

/-! The checks of `State.faultChecks`, one stage of the step after the other -/

theorem firstFault_past_end (h : 256 ≤ s.pc.toNat) :
    s.firstFault = some (.outOfBounds .fetchAddress s.pc.toNat) := by
  simp [State.firstFault, State.faultChecks, h]

theorem firstFault_unknown (h : s.pc.toNat < 256) (hd : decodeOpcode (s.cell s.pc.toNat) = none) :
    s.firstFault = some (.unknownOpcode (s.cell s.pc.toNat)) := by
  simp [State.firstFault, State.faultChecks, h, hd]

/-- The first check that applies is the head of the list, or else the first of the rest. -/
theorem find?_check_cons (b : Bool) (c : FaultCause) (l : List (Bool × FaultCause)) :
    (((b, c) :: l).find? (·.1)).map (·.2) = if b then some c else (l.find? (·.1)).map (·.2) := by
  cases b <;> rfl

/-- Past the opcode, the list holds the operand addresses as the fetch meets them and then the handler's checks. POP has
two there, one for R7 and one for every other register, where its handler makes one check of the value it increments. -/
theorem firstFault_known {o : Opcode} (h : s.pc.toNat < 256) (hd : decodeOpcode (s.cell s.pc.toNat) = some o) :
    s.firstFault =
      if 1 ≤ o.format.operandCount ∧ 256 ≤ s.pc.toNat + 1 then some (.outOfBounds .operandAddress (s.pc.toNat + 1))
      else if 2 ≤ o.format.operandCount ∧ 256 ≤ s.pc.toNat + 2 then
        some (.outOfBounds .operandAddress (s.pc.toNat + 2))
      else s.handlerFault (o.assemble (if 1 ≤ o.format.operandCount then s.cell (s.pc.toNat + 1) else 0#8)
        (if 2 ≤ o.format.operandCount then s.cell (s.pc.toNat + 2) else 0#8)) := by
  have hstart : decide (256 ≤ s.pc.toNat) = false := decide_eq_false (Nat.not_le.mpr h)
  simp only [State.firstFault, State.faultChecks, find?_check_cons, hstart, hd]
  cases o with
  | pop =>
    by_cases h7 : (s.cell (s.pc.toNat + 1)).toNat = 7 <;>
      simp [Opcode.operandCount, Opcode.format, Format.operandCount, Opcode.assemble, State.handlerFault, h7]
  | _ => simp [Opcode.operandCount, Opcode.format, Format.operandCount, Opcode.assemble, State.handlerFault]

/-- Settles O17. A step meets the checks in the order of the list: the fetch address, the opcode, the operand addresses,
and then those of the handler. -/
theorem firstFaultByPriority : Obligations.FirstFaultByPriority := by
  rintro s ⟨hr, hf⟩
  show Raises s (step s) s.firstFault
  rw [step_running hr]
  rcases Nat.lt_or_ge s.pc.toNat 256 with hpc | hpc
  · cases hd : decodeOpcode (s.cell s.pc.toNat) with
    | none =>
      rw [fetch_unknown hpc hd, firstFault_unknown hpc hd]
      exact raises_faulted s _
    | some o =>
      rw [fetch_known hpc hd, firstFault_known hpc hd, fetchOperands_eq]
      by_cases h1 : 1 ≤ o.format.operandCount ∧ 256 ≤ s.pc.toNat + 1
      · rw [if_pos h1, if_pos h1]
        exact raises_faulted s _
      · rw [if_neg h1, if_neg h1]
        by_cases h2 : 2 ≤ o.format.operandCount ∧ 256 ≤ s.pc.toNat + 2
        · rw [if_pos h2, if_pos h2]
          exact raises_faulted s _
        · rw [if_neg h2, if_neg h2]
          exact raises_exec _ hf
  · rw [fetch_past_end hpc, firstFault_past_end hpc]
    exact raises_faulted s _

end Sys2Proof.Machine

/-! Proofs of the statements about the host's actions (70_reset_and_hazards.md): `load` (R251), `start` (R252), and the
re-run after HLT (R255). -/

namespace Sys2Proof.Machine

variable {s : State} {words : List Byte}

/-! `load` (R251) -/

/-- Placed bytes read back in order: no later byte of the list is written over an earlier one. -/
theorem Memory.read_writeBytes_inside {m : Memory} (hm : Memory.Wf m) {a k : Nat} {bytes : List Byte}
    (h : a + bytes.length ≤ 256) (hk : k < bytes.length) : (m.writeBytes a bytes).read (a + k) = bytes[k] := by
  induction bytes generalizing m a k with
  | nil => exact absurd hk (Nat.not_lt_zero k)
  | cons v rest ih =>
    simp only [List.length_cons] at h hk
    cases k with
    | zero =>
      calc (m.writeBytes a (v :: rest)).read a
        _ = (m.write a v).read a := Memory.read_writeBytes_outside _ (.inl (Nat.lt_succ_self a))
        _ = v := Memory.read_write_same hm a v
    | succ k =>
      rw [show a + (k + 1) = a + 1 + k by omega]
      exact ih (Memory.wf_write hm (by omega) v) (by omega) (by omega)

theorem State.hostLoad_of_loaded (h : s.loaded = true) (words : List Byte) : s.hostLoad words = (.refused, s) :=
  if_pos h

theorem State.hostLoad_of_too_long (h : s.loaded = false) (hw : 256 < words.length) :
    s.hostLoad words = (.programTooLarge, s) := by
  simp [State.hostLoad, h, hw]

theorem State.hostLoad_of_fits (h : s.loaded = false) (hw : words.length ≤ 256) :
    s.hostLoad words = (.ok, { s.placeBytes 0 words with loaded := true }) := by
  simp [State.hostLoad, h, hw]

/-- Every cell of the memory after reset is 0, and 0 is no opcode (R89). -/
theorem fetch_of_memory_nil (hm : s.memory = []) (hpc : s.pc.toNat < 256) : fetch s = .error (.unknownOpcode 0#8) := by
  have hcell : s.cell s.pc.toNat = 0#8 := by rw [State.cell, hm, Memory.read_nil]
  rw [fetch_unknown hpc (by rw [hcell]; decide), hcell]

/-- Settles O7. The words fit below 256 and no cell is written twice, so each reads back what `load` placed in it; after
an empty load the first fetch, from address 0, finds the memory of the reset. -/
theorem loadPlacesProgram : Obligations.LoadPlacesProgram := by
  refine ⟨fun s words hwf =>
    ⟨fun hl hw => ?_, State.hostLoad_of_too_long, fun hl => State.hostLoad_of_loaded hl words⟩, ?_⟩
  · refine ⟨_, State.hostLoad_of_fits hl hw, rfl, fun k hk => ?_, fun a ha => ?_⟩
    · have := Memory.read_writeBytes_inside hwf (a := 0) (by omega) hk
      rwa [Nat.zero_add] at this
    · exact Memory.read_writeBytes_outside s.memory (.inr (by omega))
  · rintro s t rfl
    exact step_of_fetch_error rfl (fetch_of_memory_nil rfl (Nat.zero_lt_succ 255))

/-! `start` (R252) -/

theorem State.mayStart_iff : s.mayStart = true ↔ s.running = false ∧ s.hostStatus.kind = 0 ∧ s.loaded = true := by
  simp [State.mayStart, State.hostStatus_kind_eq_zero, and_assoc]

theorem State.hostStart_of_not_mayStart (h : ¬s.mayStart = true) : s.hostStart = (.refused, s) :=
  if_neg h

/-- Settles O8. A load that was too long leaves `loaded` at its reset value 0, so `start` stays refused. -/
theorem startAccepted : Obligations.StartAccepted := by
  intro s
  simp only [← State.mayStart_iff]
  refine ⟨State.hostStart_of_mayStart, State.hostStart_of_not_mayStart, fun words hw => ?_⟩
  rw [State.hostLoad_of_too_long rfl hw]
  exact congrArg Prod.fst (State.hostStart_of_not_mayStart (s := s.hostReset) Bool.false_ne_true)

/-! Re-run after HLT (R255) -/

/-- Settles O10. HLT writes `running` and `pc` alone, so the state it leaves may start, and is still loaded. -/
theorem rerunAfterHalt : Obligations.RerunAfterHalt := by
  intro s t hf hl h
  obtain ⟨-, hexec, -, -, hstart⟩ := hltHalts s
  cases hexec.symm.trans h
  exact ⟨hstart hf hl, State.hostLoad_of_loaded hl⟩

end Sys2Proof.Machine

/-! Proofs of the statements about the encoding (30_encoding.md): decoding and encoding agree (R80, R81, R87), the
table's words (R86) and the bit pattern of its constants (R88). -/

namespace Sys2Proof.Machine

@[simp] theorem opcode_assemble (o : Opcode) (b1 b2 : Byte) : (o.assemble b1 b2).opcode = o := by
  cases o <;> rfl

/-- The operand bytes of an assembled instruction are as many of the two bytes as its format has. -/
theorem operands_assemble (o : Opcode) (b1 b2 : Byte) :
    (o.assemble b1 b2).operands = [b1, b2].take o.format.operandCount := by
  cases o <;> rfl

/-- Reading operand bytes takes them off the front of the list and nothing else. -/
theorem eq_append_of_takeOperands {f : Format} {bytes rest : List Byte} {b1 b2 : Byte}
    (h : takeOperands f bytes = .ok (b1, b2, rest)) : bytes = [b1, b2].take f.operandCount ++ rest := by
  unfold takeOperands at h
  split at h <;> cases h <;> rfl

/-- Past a defined opcode, decoding is reading the operand bytes of its format. -/
theorem takeOperands_of_decode {op : Byte} {o : Opcode} {tail rest : List Byte} {i : Instr}
    (ho : decodeOpcode op = some o) (h : decode (op :: tail) = .ok (i, rest)) :
    ∃ b1 b2, takeOperands o.format tail = .ok (b1, b2, rest) ∧ i = o.assemble b1 b2 := by
  simp only [decode, ho] at h
  split at h <;> cases h
  exact ⟨_, _, ‹_›, rfl⟩

theorem decode_encode (i : Instr) (rest : List Byte) : decode (encode i ++ rest) = .ok (i, rest) := by
  cases i <;> rfl

/-- Settles O1. What `decode` answers names the bytes it took: the tag has one byte, and the operand bytes are those
read. -/
theorem decodeEncodeAgree : Obligations.DecodeEncodeAgree := by
  intro bytes rest i
  constructor
  · intro h
    cases bytes with
    | nil => cases h
    | cons op tail =>
      cases ho : decodeOpcode op with
      | none =>
        rw [decode_of_decodeOpcode_eq_none ho] at h
        cases h
      | some o =>
        obtain ⟨b1, b2, htake, rfl⟩ := takeOperands_of_decode ho h
        rw [decodeOpcode_eq_some.mp ho, eq_append_of_takeOperands htake, encode, opcode_assemble, operands_assemble]
        rfl
  · rintro rfl
    exact decode_encode i rest

/-- Settles O2. -/
theorem tableWordsDecode : Obligations.TableWordsDecode := by
  unfold Obligations.TableWordsDecode
  decide

/-- Settles O5, tag by tag. -/
theorem opcodeBitPattern : Obligations.OpcodeBitPattern := by
  refine ⟨fun o => ?_, rfl⟩
  cases o <;> decide

end Sys2Proof.Machine

/-! What an instruction that raises nothing does (40_engine.md R123), said once: every state it can leave, with the
checks it passed, and from that what it writes. The frames, the invariant, the next `pc` and the stack discipline
follow. -/

namespace Sys2Proof

/-- The instruction may write register `q`: its destination, or the stack pointer. -/
def Instr.writesReg (q : RegIndex) : Instr → Prop
  | .ldi r _ | .mul r _ | .add r _ => q.val = r.toNat
  | .pop r => q = 7 ∨ q.val = r.toNat
  | .push _ | .call _ | .ret => q = 7
  | .hlt | .prn _ | .cmp _ _ | .jmp _ | .jne _ | .jeq _ => False

end Sys2Proof

namespace Sys2Proof.Machine

variable {i : Instr} {s t : State}

/-- `i` passes its checks in `s` and its writes leave `t`. -/
inductive Completes (s : State) : Instr → State → Prop where
  | hlt : Completes s .hlt ({ s with running := false }.selectPc .zero)
  | ldi {r imm : Byte} (h : r.toNat < 8) :
      Completes s (.ldi r imm) ((s.setReg ⟨r.toNat, h⟩ imm).selectPc (.seq 3))
  | prn {r : Byte} (h : r.toNat < 8) : Completes s (.prn r) ((s.emit (s.reg ⟨r.toNat, h⟩)).selectPc (.seq 2))
  | mul {a b : Byte} (ha : a.toNat < 8) (hb : b.toNat < 8) :
      Completes s (.mul a b) ((s.setReg ⟨a.toNat, ha⟩
        (narrow ((s.reg ⟨a.toNat, ha⟩).toNat * (s.reg ⟨b.toNat, hb⟩).toNat))).selectPc (.seq 3))
  | push {r : Byte} (h : r.toNat < 8) (hsp : s.sp ≠ 0#8) : Completes s (.push r) (s.pushed ⟨r.toNat, h⟩)
  | pop {r : Byte} (h : r.toNat < 8) (hr : r.toNat ≠ 7) (hsp : s.sp ≠ 255#8) :
      Completes s (.pop r) (((s.setReg ⟨r.toNat, h⟩ (s.cell s.sp.toNat)).setSp (s.sp + 1#8)).selectPc (.seq 2))
  | popSp {r : Byte} (hr : r.toNat = 7) (hv : s.cell s.sp.toNat ≠ 255#8) :
      Completes s (.pop r) ((s.setSp (s.cell s.sp.toNat + 1#8)).selectPc (.seq 2))
  | call {r : Byte} (h : r.toNat < 8) (hsp : s.sp ≠ 0#8) (hpc : s.pc.toNat + 2 < 256) :
      Completes s (.call r) (s.called ⟨r.toNat, h⟩)
  | ret (hsp : s.sp ≠ 255#8) :
      Completes s .ret ((s.setSp (s.sp + 1#8)).selectPc (.target (s.cell s.sp.toNat)))
  | add {a b : Byte} (ha : a.toNat < 8) (hb : b.toNat < 8) :
      Completes s (.add a b) ((s.setReg ⟨a.toNat, ha⟩
        (narrow ((s.reg ⟨a.toNat, ha⟩).toNat + (s.reg ⟨b.toNat, hb⟩).toNat))).selectPc (.seq 3))
  | cmp {a b : Byte} (ha : a.toNat < 8) (hb : b.toNat < 8) :
      Completes s (.cmp a b)
        ((s.setFlags (compareFlags (s.reg ⟨a.toNat, ha⟩) (s.reg ⟨b.toNat, hb⟩))).selectPc (.seq 3))
  | jmp {r : Byte} (h : r.toNat < 8) : Completes s (.jmp r) (s.selectPc (.target (s.reg ⟨r.toNat, h⟩)))
  | jne {r : Byte} (h : r.toNat < 8) :
      Completes s (.jne r) (s.selectPc (branchSelect (!s.flags.e) (s.reg ⟨r.toNat, h⟩)))
  | jeq {r : Byte} (h : r.toNat < 8) :
      Completes s (.jeq r) (s.selectPc (branchSelect s.flags.e (s.reg ⟨r.toNat, h⟩)))

/-- An instruction completes, or takes a fault, which writes nothing else. -/
theorem exec_cases (e : exec i s = .next t) : Completes s i t ∨ ∃ c, t = s.faulted c := by
  cases i with
  | hlt =>
    cases execHlt_cases e
    exact .inl .hlt
  | ldi r imm =>
    obtain ⟨h, rfl⟩ | ⟨_, rfl⟩ := execLdi_cases e
    exacts [.inl (.ldi h), .inr ⟨_, rfl⟩]
  | prn r =>
    obtain ⟨h, rfl⟩ | ⟨_, rfl⟩ := execPrn_cases e
    exacts [.inl (.prn h), .inr ⟨_, rfl⟩]
  | mul a b =>
    obtain ⟨ha, hb, rfl⟩ | ⟨_, rfl⟩ | ⟨_, _, rfl⟩ := execMul_cases e
    exacts [.inl (.mul ha hb), .inr ⟨_, rfl⟩, .inr ⟨_, rfl⟩]
  | push r =>
    obtain ⟨h, hsp, rfl⟩ | ⟨_, rfl⟩ | ⟨_, _, rfl⟩ := execPush_cases e
    exacts [.inl (.push h hsp), .inr ⟨_, rfl⟩, .inr ⟨_, rfl⟩]
  | pop r =>
    obtain ⟨h, hr, hsp, rfl⟩ | ⟨hr, hv, rfl⟩ | ⟨_, rfl⟩ | ⟨_, _, rfl⟩ | ⟨_, _, rfl⟩ := execPop_cases e
    exacts [.inl (.pop h hr hsp), .inl (.popSp hr hv), .inr ⟨_, rfl⟩, .inr ⟨_, rfl⟩, .inr ⟨_, rfl⟩]
  | call r =>
    obtain ⟨h, hsp, hpc, rfl⟩ | ⟨_, rfl⟩ | ⟨_, _, rfl⟩ | ⟨_, _, _, rfl⟩ := execCall_cases e
    exacts [.inl (.call h hsp hpc), .inr ⟨_, rfl⟩, .inr ⟨_, rfl⟩, .inr ⟨_, rfl⟩]
  | ret =>
    obtain ⟨hsp, rfl⟩ | ⟨_, rfl⟩ := execRet_cases e
    exacts [.inl (.ret hsp), .inr ⟨_, rfl⟩]
  | add a b =>
    obtain ⟨ha, hb, rfl⟩ | ⟨_, rfl⟩ | ⟨_, _, rfl⟩ := execAdd_cases e
    exacts [.inl (.add ha hb), .inr ⟨_, rfl⟩, .inr ⟨_, rfl⟩]
  | cmp a b =>
    obtain ⟨ha, hb, rfl⟩ | ⟨_, rfl⟩ | ⟨_, _, rfl⟩ := execCmp_cases e
    exacts [.inl (.cmp ha hb), .inr ⟨_, rfl⟩, .inr ⟨_, rfl⟩]
  | jmp r =>
    obtain ⟨h, rfl⟩ | ⟨_, rfl⟩ := execJmp_cases e
    exacts [.inl (.jmp h), .inr ⟨_, rfl⟩]
  | jne r =>
    obtain ⟨h, rfl⟩ | ⟨_, rfl⟩ := execJne_cases e
    exacts [.inl (.jne h), .inr ⟨_, rfl⟩]
  | jeq r =>
    obtain ⟨h, rfl⟩ | ⟨_, rfl⟩ := execJeq_cases e
    exacts [.inl (.jeq h), .inr ⟨_, rfl⟩]

/-- A step runs one instruction to its end, or takes a fault. -/
theorem step_cases (h : step s = .next t) : (∃ i, fetch s = .ok i ∧ Completes s i t) ∨ ∃ c, t = s.faulted c := by
  obtain ⟨_, ⟨i, hi, e⟩ | ⟨c, _, rfl⟩⟩ := step_eq_next h
  · exact (exec_cases e).imp_left fun hc => ⟨i, hi, hc⟩
  · exact .inr ⟨c, rfl⟩

theorem State.runs.completes (h : s.runs i t) : Completes s i t := by
  obtain ⟨⟨hr, _⟩, hi, hstep, hf⟩ := h
  obtain hc | ⟨c, rfl⟩ := exec_cases ((step_of_fetch_ok hr hi).symm.trans hstep)
  · exact hc
  · cases hf

/-! What completing writes -/

namespace Completes

theorem fault (h : Completes s i t) : t.fault = s.fault := by cases h <;> rfl

theorem loaded (h : Completes s i t) : t.loaded = s.loaded := by cases h <;> rfl

theorem out (h : Completes s i t) (hi : ∀ r, i ≠ .prn r) : t.out = s.out := by
  cases h with
  | prn => exact absurd rfl (hi _)
  | _ => rfl

theorem running (h : Completes s i t) (hi : i ≠ .hlt) : t.running = s.running := by
  cases h with
  | hlt => exact absurd rfl hi
  | _ => rfl

theorem flags (h : Completes s i t) (hi : ∀ a b, i ≠ .cmp a b) : t.flags = s.flags := by
  cases h with
  | cmp => exact absurd rfl (hi _ _)
  | _ => rfl

/-- PUSH and CALL write the cell below the old stack pointer, and no other instruction writes memory (20_memory.md
R61). -/
theorem memory (h : Completes s i t) :
    t.memory = s.memory ∨
      i.pushes = true ∧ s.sp ≠ 0#8 ∧ ∃ v, t.memory = s.memory.write (s.sp - 1#8).toNat v := by
  cases h with
  | push _ hsp | call _ hsp => exact .inr ⟨rfl, hsp, _, rfl⟩
  | _ => exact .inl rfl

theorem memory_of_not_pushes (h : Completes s i t) (hi : i.pushes = false) : t.memory = s.memory := by
  obtain hm | ⟨hp, _⟩ := h.memory
  · exact hm
  · simp [hi] at hp

/-- A cell that changes is the one below the old stack pointer. -/
theorem cell_ne (h : Completes s i t) {a : Nat} (ha : t.cell a ≠ s.cell a) : i.pushes = true ∧ a + 1 = s.sp.toNat := by
  obtain hm | ⟨hp, hsp, v, hm⟩ := h.memory
  · exact absurd (by rw [State.cell, State.cell, hm]) ha
  · have haddr : a = (s.sp - 1#8).toNat := by
      by_contra hne
      exact ha (by rw [State.cell, State.cell, hm, Memory.read_write_ne _ _ hne])
    rw [haddr]
    exact ⟨hp, toNat_of_spDec_ok (spDec_of_ne hsp)⟩

end Completes

theorem State.reg_setReg_of_val_ne (s : State) {b : Byte} (h : b.toNat < 8) (v : Byte) {q : RegIndex}
    (hq : q.val ≠ b.toNat) : (s.setReg ⟨b.toNat, h⟩ v).reg q = s.reg q :=
  s.reg_setReg_ne v fun e => hq (congrArg Fin.val e).symm

theorem State.reg_setSp_ne (s : State) (v : Byte) {q : RegIndex} (hq : q ≠ 7) : (s.setSp v).reg q = s.reg q :=
  s.reg_setReg_ne v (Ne.symm hq)

theorem Completes.reg (h : Completes s i t) {q : RegIndex} (hq : ¬i.writesReg q) : t.reg q = s.reg q := by
  cases h with
  | ldi h | mul h | add h => exact s.reg_setReg_of_val_ne h _ hq
  | push | call | ret => exact s.reg_setSp_ne _ hq
  | popSp => exact s.reg_setSp_ne _ fun h7 => hq (.inl h7)
  | pop h =>
    obtain ⟨h7, hr⟩ := not_or.mp hq
    exact (State.reg_setSp_ne _ _ h7).trans (s.reg_setReg_of_val_ne h _ hr)
  | _ => rfl

end Sys2Proof.Machine

/-! Proofs of the statements about the step (40_engine.md section 2): the fetch is the decoding of the bytes at `pc`
(R126), a Running engine always steps (R118), and a JMP to itself never ends (R125). -/

namespace Sys2Proof.Machine

variable {i : Instr} {s t : State}

/-! Fetching (R119 to R121) -/

/-- The bytes of memory from `a` to the end of the address space. -/
def State.bytesFrom (s : State) (a : Nat) : List Byte := (List.range (256 - a)).map fun k => s.cell (a + k)

theorem State.bytesFrom_of_lt {a : Nat} (h : a < 256) : s.bytesFrom a = s.cell a :: s.bytesFrom (a + 1) := by
  rw [State.bytesFrom, State.bytesFrom, show 256 - a = 256 - (a + 1) + 1 by omega, List.range_succ_eq_map]
  simp [Function.comp_def, Nat.add_assoc, Nat.add_comm 1]

theorem State.bytesFrom_of_ge {a : Nat} (h : 256 ≤ a) : s.bytesFrom a = [] := by
  simp [State.bytesFrom, Nat.sub_eq_zero_of_le h]

/-- The byte in front of those from `a` on is that of the cell at `a`, which then exists. -/
theorem State.bytesFrom_eq_cons {a : Nat} {b : Byte} {rest : List Byte} (h : s.bytesFrom a = b :: rest) :
    a < 256 ∧ s.cell a = b ∧ s.bytesFrom (a + 1) = rest := by
  rcases Nat.lt_or_ge a 256 with ha | ha
  · rw [State.bytesFrom_of_lt ha, List.cons.injEq] at h
    exact ⟨ha, h⟩
  · rw [State.bytesFrom_of_ge ha] at h
    cases h

theorem State.bytesAtPc_eq (s : State) : s.bytesAtPc = s.bytesFrom s.pc.toNat := rfl

/-- The fetch reads the opcode at `pc`, and as many of the bytes after it as the format has. -/
theorem fetch_of_bytesAtPc {rest : List Byte} (h : s.bytesAtPc = encode i ++ rest) : fetch s = .ok i := by
  obtain ⟨hpc, hop, h1⟩ := State.bytesFrom_eq_cons h
  rw [fetch_known hpc (decodeOpcode_eq_some.mpr hop), fetchOperands_eq]
  cases i with
  | hlt | ret => rfl
  | prn | push | pop | call | jmp | jne | jeq =>
    obtain ⟨hpc1, hb1, _⟩ := State.bytesFrom_eq_cons h1
    simp [Instr.opcode, Opcode.format, Format.operandCount, Opcode.assemble, Except.map, hb1, Nat.not_le.mpr hpc1]
  | ldi | mul | add | cmp =>
    obtain ⟨hpc1, hb1, h2⟩ := State.bytesFrom_eq_cons h1
    obtain ⟨hpc2, hb2, _⟩ := State.bytesFrom_eq_cons h2
    simp [Instr.opcode, Opcode.format, Format.operandCount, Opcode.assemble, Except.map, hb1, hb2, Nat.not_le.mpr hpc1,
      Nat.not_le.mpr hpc2]

theorem fetchOperands_ok_fits {f : Format} {p : Byte × Byte} (hpc : s.pc.toNat < 256) (h : fetchOperands s f = .ok p) :
    s.pc.toNat + f.operandCount < 256 := by
  have hcount := operandCount_le_two f
  rw [fetchOperands_eq] at h
  split at h
  · cases h
  · split at h
    · cases h
    · omega

/-- An instruction is fetched only where its last byte exists. -/
theorem fetch_ok_fits (h : fetch s = .ok i) : s.pc.toNat + i.opcode.operandCount < 256 := by
  rcases Nat.lt_or_ge s.pc.toNat 256 with hpc | hpc
  · cases hd : decodeOpcode (s.cell s.pc.toNat) with
    | none =>
      rw [fetch_unknown hpc hd] at h
      cases h
    | some o =>
      rw [fetch_known hpc hd] at h
      cases hops : fetchOperands s o.format with
      | error c =>
        rw [hops] at h
        cases h
      | ok p =>
        rw [hops] at h
        cases h
        exact (opcode_assemble o p.1 p.2).symm ▸ fetchOperands_ok_fits hpc hops
  · rw [fetch_past_end hpc] at h
    cases h

/-- Settles O13. Bytes that decode are the encoding of what they decode to, which is what the fetch reads. -/
theorem stepRunsDecoded : Obligations.StepRunsDecoded := by
  intro s i rest hr hd
  exact step_of_fetch_ok hr (fetch_of_bytesAtPc ((decodeEncodeAgree _ _ _).mp hd))

/-! A Running engine always steps (R118) -/

/-- Every handler is committed, and a commit answers a next state whatever the checks answer (R123). -/
theorem exec_next (i : Instr) (s : State) : ∃ t, exec i s = .next t := by
  cases i <;>
    simp only [exec, execHlt, execLdi, execPrn, execMul, execPush, execPop, execCall, execRet, execAdd, execCmp,
      execJmp, execJne, execJeq] <;>
    exact commit_next s _

/-- Settles O14. A Running engine answers what its handler commits, or the fault of its fetch. -/
theorem runningEngineAlwaysSteps : Obligations.RunningEngineAlwaysSteps := by
  refine fun s => ⟨fun hr => ?_, fun hr hf => ?_, fun hr hf => ?_⟩
  · cases hfetch : fetch s with
    | ok i =>
      rw [step_of_fetch_ok hr hfetch]
      exact exec_next i s
    | error c => exact ⟨_, step_of_fetch_error hr hfetch⟩
  · simp [step, hr, hf]
  · obtain ⟨r, hr'⟩ := Option.ne_none_iff_exists'.mp hf
    simp [step, hr, hr']

/-! A JMP to its own address (R193, R125) -/

section Run

variable {M : Host.Core} {s s' : M.State}

theorem run_succ_next (h : M.step s = .next s') (k : Nat) : M.run (k + 1) s = M.run k s' := by
  rw [Host.Core.run, h]

theorem run_succ_fault {r : M.Fault} (h : M.step s = .fault r) (k : Nat) : M.run (k + 1) s = .fault r := by
  rw [Host.Core.run, h]

theorem run_succ_refused {r : M.Refusal} (h : M.step s = .refused r) (k : Nat) : M.run (k + 1) s = .refused r := by
  rw [Host.Core.run, h]

/-- A state that steps to itself is where a run of any length ends. -/
theorem run_of_step_self (h : M.step s = .next s) (k : Nat) : M.run k s = .next s := by
  induction k with
  | zero => rfl
  | succ k ih => rw [run_succ_next h, ih]

end Run

theorem State.selectPc_target_self {v : Byte} (h : v.toNat = s.pc.toNat) : s.selectPc (.target v) = s := by
  have hpc : (s.selectPc (.target v)).pc = s.pc := BitVec.eq_of_toNat_eq ((s.toNat_pc_selectPc_target v).trans h)
  rw [State.selectPc_pc] at hpc
  rw [State.selectPc, hpc]

/-- Settles O43. The step fetches the JMP again and sets `pc` to what it is, so it answers the state it started from. -/
theorem jmpToItselfNeverEnds : Obligations.JmpToItselfNeverEnds := by
  intro s r h k hr hpc hop hreg htarget
  have hfetch : fetch s = .ok (.jmp r) := by
    apply fetch_of_bytesAtPc (rest := s.bytesFrom (s.pc.toNat + 2))
    rw [State.bytesAtPc_eq, State.bytesFrom_of_lt (by omega), State.bytesFrom_of_lt hpc, hop, hreg]
    rfl
  have hstep : step s = .next s := by
    rw [step_of_fetch_ok hr hfetch, exec_jmp_of_lt h]
    exact congrArg _ (State.selectPc_target_self htarget)
  exact run_of_step_self (M := Sys2Proof.core) hstep k

end Sys2Proof.Machine

/-! Proofs of the statements about the next `pc` (10_state.md R35, R36), the causes a step can latch (R156, R220 to
R222), the invariant, and the flags (R38). -/

namespace Sys2Proof.Machine

variable {i : Instr} {s t : State}

/-! The next `pc` (R36) -/

/-- An advance that stays at 256 or below is the exact sum (R35). -/
theorem State.toNat_pc_selectPc_seq (s : State) {n : Nat} (h : s.pc.toNat + n ≤ 256) :
    (s.selectPc (.seq n)).pc.toNat = s.pc.toNat + n := by
  rw [State.selectPc_pc, PcSelect.next, BitVec.toNat_add, BitVec.toNat_ofNat]
  omega

theorem State.regs_getElem! (s : State) {r : Byte} (h : r.toNat < 8) : s.regs[r.toNat]! = s.reg ⟨r.toNat, h⟩ :=
  getElem!_pos s.regs r.toNat h

/-- A conditional jump goes to its target or past its two bytes. -/
theorem State.toNat_pc_selectPc_branch (s : State) (taken : Bool) (v : Byte) (h : s.pc.toNat + 2 ≤ 256) :
    (s.selectPc (branchSelect taken v)).pc.toNat = if taken then v.toNat else s.pc.toNat + 2 := by
  cases taken with
  | true => exact s.toNat_pc_selectPc_target v
  | false => exact s.toNat_pc_selectPc_seq h

/-- The operand bytes of a fetched instruction exist, so its advance does not pass 256. -/
theorem Completes.toNat_pc (h : Completes s i t) (hfit : s.pc.toNat + i.opcode.operandCount < 256) :
    t.pc.toNat = s.nextPc i := by
  cases h with
  | hlt => rfl
  | ldi | mul | add | cmp | prn | push | pop | popSp => exact State.toNat_pc_selectPc_seq _ hfit
  | call h hsp => rw [State.toNat_pc_called hsp h, State.nextPc, s.regs_getElem! h]; rfl
  | ret => exact State.toNat_pc_selectPc_target _ _
  | jmp h => rw [State.toNat_pc_selectPc_target, State.nextPc, s.regs_getElem! h]
  | jne h =>
    rw [State.toNat_pc_selectPc_branch _ _ _ hfit, State.nextPc, s.regs_getElem! h]
    cases s.flags.e <;> rfl
  | jeq h => rw [State.toNat_pc_selectPc_branch _ _ _ hfit, State.nextPc, s.regs_getElem! h]

/-- A target is one byte, and an advance is at most the instruction's length. -/
theorem State.nextPc_le (hfit : s.pc.toNat + i.opcode.operandCount < 256) : s.nextPc i ≤ 256 := by
  have hbyte (v : Byte) : v.toNat ≤ 256 := v.isLt.le
  cases i with
  | hlt => exact Nat.zero_le _
  | ldi | mul | add | cmp | prn | push | pop => exact hfit
  | ret | jmp => exact hbyte _
  | call r =>
    rw [State.nextPc]
    split
    · exact (Nat.sub_le _ _).trans (hbyte _)
    · exact hbyte _
  | jne r =>
    rw [State.nextPc]
    split
    exacts [hfit, hbyte _]
  | jeq r =>
    rw [State.nextPc]
    split
    exacts [hbyte _, hfit]

/-- Settles O20. The instruction was fetched whole, which bounds every advance. -/
theorem nextPcExact : Obligations.NextPcExact := by
  intro s t i h
  obtain ⟨-, hi, -, -⟩ := id h
  have hfit := fetch_ok_fits hi
  have hpc := h.completes.toNat_pc hfit
  exact ⟨hpc, hpc ▸ State.nextPc_le hfit⟩

/-! The causes a step can latch (R156, R220 to R222) -/

/-- Settles O55. -/
theorem faultCodes : Obligations.FaultCodes :=
  ⟨fun _ => rfl, fun _ _ => rfl, fun _ => rfl, rfl, rfl, State.hostLoad_fault⟩

/-- A record that a step leaves in the latch of a Ready engine is of the first check that applies (R225). -/
theorem firstFault_of_step {r : FaultRecord} (hs : s.Ready) (h : step s = .next t) (hr : t.fault = some r) :
    s.firstFault = some r.cause ∧ r.pc = s.pc := by
  obtain ⟨t', h', hf⟩ := firstFaultByPriority s hs
  cases h.symm.trans h'
  obtain ⟨c, hc, rfl⟩ := Option.map_eq_some_iff.mp (hf.symm.trans hr)
  exact ⟨hc, rfl⟩

/-- None of the checks raises UnsupportedOperation: no instruction passes the ALU another tag than ADD (R156). -/
theorem firstFault_ne_unsupported (s : State) (tag : AluOp) : s.firstFault ≠ some (.unsupportedOperation tag) := by
  intro h
  obtain ⟨⟨b, c⟩, hfind, rfl⟩ := Option.map_eq_some_iff.mp h
  have hmem := List.mem_of_find?_eq_some hfind
  simp [State.faultChecks] at hmem

/-- Settles O19. What a step latches is one of the checks of R225. -/
theorem noStepUnsupported : Obligations.NoStepUnsupported := by
  intro s t r tag hs h hr hcause
  exact firstFault_ne_unsupported s tag (hcause ▸ (firstFault_of_step hs h hr).1)

/-- Where the check list yields a cause, the record of it in `s` is legal. -/
def State.Legal (s : State) (o : Option FaultCause) : Prop := ∀ c, o = some c → (FaultRecord.mk c s.pc).legal = true

theorem legal_none (s : State) : s.Legal none := fun _ h => nomatch h

theorem legal_ite {p : Prop} [Decidable p] {c : FaultCause} {o : Option FaultCause}
    (hc : p → (FaultRecord.mk c s.pc).legal = true) (ho : ¬p → s.Legal o) : s.Legal (if p then some c else o) := by
  split
  · next hp => rintro _ ⟨⟩; exact hc hp
  · next hp => exact ho hp

theorem legal_registerIndex (hpc : s.pc.toNat ≤ 256) {r : Byte} (h : 8 ≤ r.toNat) :
    (FaultRecord.mk (.outOfBounds .registerIndex r.toNat) s.pc).legal = true := by
  have : r.toNat ≤ 255 := Nat.le_of_lt_succ r.isLt
  simp [FaultRecord.legal, *]

theorem legal_spDecrement (hpc : s.pc.toNat ≤ 256) :
    (FaultRecord.mk (.outOfBounds .spDecrement 0) s.pc).legal = true := by
  simp [FaultRecord.legal, hpc]

theorem legal_spIncrement (hpc : s.pc.toNat ≤ 256) :
    (FaultRecord.mk (.outOfBounds .spIncrement 255) s.pc).legal = true := by
  simp [FaultRecord.legal, hpc]

/-- What the checks of a handler record, where the operand bytes of its instruction exist. -/
theorem legal_handlerFault (hfit : s.pc.toNat + i.opcode.operandCount < 256) : s.Legal (s.handlerFault i) := by
  have hpc : s.pc.toNat ≤ 256 := by omega
  cases i with
  | hlt => exact legal_none s
  | ldi | prn | jmp | jne | jeq => exact legal_ite (legal_registerIndex hpc) fun _ => legal_none s
  | mul | add | cmp =>
    exact legal_ite (legal_registerIndex hpc) fun _ => legal_ite (legal_registerIndex hpc) fun _ => legal_none s
  | push =>
    exact legal_ite (legal_registerIndex hpc) fun _ => legal_ite (fun _ => legal_spDecrement hpc) fun _ => legal_none s
  | pop =>
    exact legal_ite (legal_registerIndex hpc) fun _ => legal_ite (fun _ => legal_spIncrement hpc) fun _ => legal_none s
  | ret => exact legal_ite (fun _ => legal_spIncrement hpc) fun _ => legal_none s
  | call =>
    refine legal_ite (legal_registerIndex hpc) fun _ => legal_ite (fun _ => legal_spDecrement hpc) fun _ =>
      legal_ite (fun hge => ?_) fun _ => legal_none s
    have hfit' : s.pc.toNat + 1 < 256 := hfit
    have hra : s.pc.toNat + 2 = 256 := by omega
    simp [FaultRecord.legal, hpc, hra]

/-- The first check that applies records what R221 and R222 say: an address past the end is 256, since `pc` is at most
256 and every byte before the missing one exists. -/
theorem legal_firstFault (hpc : s.pc.toNat ≤ 256) : s.Legal s.firstFault := by
  rcases Nat.lt_or_ge s.pc.toNat 256 with hlt | hge
  · cases hd : decodeOpcode (s.cell s.pc.toNat) with
    | none =>
      rw [firstFault_unknown hlt hd]
      rintro _ ⟨⟩
      simp [FaultRecord.legal, hpc, hd]
    | some o =>
      rw [firstFault_known hlt hd]
      refine legal_ite (fun h1 => ?_) fun h1 => legal_ite (fun h2 => ?_) fun h2 => legal_handlerFault ?_
      · have haddr : s.pc.toNat + 1 = 256 := by omega
        simp [FaultRecord.legal, hpc, haddr]
      · have haddr : s.pc.toNat + 2 = 256 := by omega
        simp [FaultRecord.legal, hpc, haddr]
      · have hcount := operandCount_le_two o.format
        rw [opcode_assemble, Opcode.operandCount]
        omega
  · have h256 : s.pc.toNat = 256 := by omega
    rw [firstFault_past_end hge]
    rintro _ ⟨⟩
    simp [FaultRecord.legal, h256]

/-! The flags (R38) -/

/-- The three comparisons of CMP exclude each other, and one holds (R155). -/
theorem compareFlags_exactlyOne (va vb : Byte) : (compareFlags va vb).exactlyOne = true := by
  rcases Nat.lt_trichotomy va.toNat vb.toNat with h | h | h
  · simp [compareFlags, Flags.exactlyOne, Flags.atMostOne, h, h.ne, h.not_gt]
  · simp [compareFlags, Flags.exactlyOne, Flags.atMostOne, h]
  · simp [compareFlags, Flags.exactlyOne, Flags.atMostOne, h, h.ne', h.not_gt]

theorem Flags.atMostOne_of_exactlyOne {f : Flags} (h : f.exactlyOne = true) : f.atMostOne = true :=
  (Bool.and_eq_true_iff.mp h).1

/-- Completing changes no flag, or leaves what CMP leaves. -/
theorem Completes.flags_cases (h : Completes s i t) : t.flags = s.flags ∨ t.flags.exactlyOne = true := by
  cases h with
  | cmp => exact .inr (compareFlags_exactlyOne _ _)
  | _ => exact .inl rfl

/-! The invariant -/

/-- Settles O27. -/
theorem invAtReset : Obligations.InvAtReset :=
  { memory := State.reset_memory_wf
    pc := Nat.zero_le _
    flags := rfl
    noFaultRunning := fun _ => rfl
    loadedFirst := by decide
    latch := fun _ h => nomatch h }

/-- Settles O28. A step runs an instruction to its end, whose writes keep each clause, or takes the first fault that
applies, whose record is legal. -/
theorem invKeptByStep : Obligations.InvKeptByStep := by
  intro s t hs h
  have hr := (step_eq_next h).1
  have hready : s.Ready := ⟨hr, hs.noFaultRunning hr⟩
  have hloaded : t.loaded = true := (step_loaded h).trans (hs.loadedFirst (.inl hr))
  obtain ⟨i, hi, hc⟩ | ⟨c, rfl⟩ := step_cases h
  · have hnone : t.fault = none := hc.fault.trans hready.2
    exact
      { memory := by
          obtain hm | ⟨_, _, v, hm⟩ := hc.memory <;> rw [hm]
          · exact hs.memory
          · exact Memory.wf_write hs.memory (s.sp - 1#8).isLt v
        pc := (nextPcExact s t i ⟨hready, hi, h, hnone⟩).2
        flags := by
          obtain hf | hf := hc.flags_cases
          · exact hf ▸ hs.flags
          · exact Flags.atMostOne_of_exactlyOne hf
        noFaultRunning := fun _ => hnone
        loadedFirst := fun _ => hloaded
        latch := fun r hr => nomatch hnone.symm.trans hr }
  · exact
      { memory := hs.memory
        pc := hs.pc
        flags := hs.flags
        noFaultRunning := fun hr => nomatch hr
        loadedFirst := fun _ => hloaded
        latch := by
          rintro r ⟨⟩
          exact ⟨legal_firstFault hs.pc c (firstFault_of_step hready h rfl).1, rfl⟩ }

theorem State.Inv.hostReset (s : State) : s.hostReset.Inv := ⟨invAtReset.memory, invAtReset.pc, invAtReset.flags,
  invAtReset.noFaultRunning, invAtReset.loadedFirst, invAtReset.latch⟩

theorem State.Inv.hostLoad (hs : s.Inv) (words : List Byte) : (s.hostLoad words).2.Inv := by
  unfold State.hostLoad
  split_ifs with hl hw
  · exact hs
  · exact hs
  · exact { hs with
      memory := Memory.wf_writeBytes hs.memory (by rw [Nat.zero_add]; exact Nat.le_of_not_lt hw)
      loadedFirst := fun _ => rfl }

theorem State.Inv.hostStart (hs : s.Inv) : s.hostStart.2.Inv := by
  by_cases hmay : s.mayStart = true
  · obtain ⟨-, hkind, hl⟩ := State.mayStart_iff.mp hmay
    have hf : s.fault = none := State.hostStatus_kind_eq_zero.mp hkind
    rw [State.hostStart_of_mayStart hmay]
    exact { hs with
      noFaultRunning := fun _ => hf
      loadedFirst := fun _ => hl }
  · rw [State.hostStart_of_not_mayStart hmay]
    exact hs

/-- Settles O29, by induction on the host's actions and the steps. -/
theorem invOfReachable : Obligations.InvOfReachable := by
  intro s h
  induction h with
  | reset => exact invAtReset
  | hostReset _ _ => exact State.Inv.hostReset _
  | load words _ ih => exact ih.hostLoad words
  | start _ ih => exact ih.hostStart
  | step _ hst ih => exact invKeptByStep _ _ ih hst

/-- Settles O23. That at most one flag is 1 in every reachable state is a clause of the invariant. -/
theorem onlyCmpWritesFlags : Obligations.OnlyCmpWritesFlags := by
  refine ⟨fun s t hs h => ?_, fun s h => (invOfReachable s h).flags⟩
  obtain ⟨i, hi, hc⟩ | ⟨c, rfl⟩ := step_cases h
  · constructor
    · intro hne
      by_contra! hno
      exact hne (hc.flags (by rintro a b rfl; exact hno a b hi))
    · intro a b hf _
      cases hi.symm.trans hf
      cases hc
      exact compareFlags_exactlyOne _ _
  · exact ⟨fun hne => absurd rfl hne, fun _ _ _ hf => nomatch hf⟩

end Sys2Proof.Machine

/-! Proof of the statement about L and G (10_state.md section 5): no instruction reads them. -/

namespace Sys2Proof.Machine

variable {s t : State}

/-- The state with other values in L and G. -/
def State.setLG (s : State) (l g : Bool) : State := { s with flags := ⟨s.flags.e, l, g⟩ }

theorem State.sameButLG_iff : s.sameButLG t ↔ ∃ l g, t = s.setLG l g :=
  ⟨fun h => ⟨_, _, h⟩, by rintro ⟨l, g, rfl⟩; rfl⟩

/-- A check of a handler, or any other value it computes, that both states answer alike: both take the fault it
raises, or both go on with its value. -/
theorem sameButLG_bind {α : Type} {l g : Bool} (x : Except FaultCause α) {f f' : α → Except FaultCause State}
    (h : ∀ a, resultsSameButLG (s.commit (f a)) ((s.setLG l g).commit (f' a))) :
    resultsSameButLG (s.commit (x >>= f)) ((s.setLG l g).commit (x >>= f')) := by
  cases x with
  | error c => exact rfl
  | ok a => exact h a

/-- A condition that both states decide alike. -/
theorem sameButLG_ite {l g : Bool} (p : Prop) [Decidable p] {x y x' y' : Except FaultCause State}
    (hx : resultsSameButLG (s.commit x) ((s.setLG l g).commit x'))
    (hy : resultsSameButLG (s.commit y) ((s.setLG l g).commit y')) :
    resultsSameButLG (s.commit (if p then x else y)) ((s.setLG l g).commit (if p then x' else y')) := by
  split
  exacts [hx, hy]

/-- Every check a handler makes, and every value it writes but L and G, is the same in both states. -/
theorem exec_sameButLG (i : Instr) (s : State) (l g : Bool) :
    resultsSameButLG (exec i s) (exec i (s.setLG l g)) := by
  cases i with
  | hlt => exact rfl
  | ldi r | prn r | jmp r | jne r | jeq r => exact sameButLG_bind (regIdx r) fun _ => rfl
  | mul a b | add a b | cmp a b => exact sameButLG_bind (regPair a b) fun _ => rfl
  | push r => exact sameButLG_bind (regIdx r) fun _ => sameButLG_bind (spDec s.sp) fun _ => rfl
  | ret => exact sameButLG_bind (spInc s.sp) fun _ => rfl
  | call r =>
    exact sameButLG_bind (regIdx r) fun _ => sameButLG_bind (spDec s.sp) fun _ =>
      sameButLG_ite (256 ≤ s.pc.toNat + 2) rfl rfl
  | pop r =>
    exact sameButLG_bind (regIdx r) fun rd => sameButLG_ite (rd = Config.spIndex)
      (sameButLG_bind (spInc (s.cell s.sp.toNat)) fun _ => rfl) (sameButLG_bind (spInc s.sp) fun _ => rfl)

theorem fetch_setLG (s : State) (l g : Bool) : fetch (s.setLG l g) = fetch s := rfl

theorem step_sameButLG (h : s.sameButLG t) : resultsSameButLG (step s) (step t) := by
  obtain ⟨l, g, rfl⟩ := State.sameButLG_iff.mp h
  cases hr : s.running with
  | true =>
    rw [step_running hr, step_running (s := s.setLG l g) hr, fetch_setLG]
    cases fetch s with
    | ok i => exact exec_sameButLG i s l g
    | error c => exact rfl
  | false =>
    obtain ⟨-, hhalted, hfaulted⟩ := runningEngineAlwaysSteps s
    obtain ⟨-, hhalted', hfaulted'⟩ := runningEngineAlwaysSteps (s.setLG l g)
    by_cases hf : s.fault = none
    · rw [hhalted hr hf, hhalted' hr hf]
      exact rfl
    · rw [hfaulted hr hf, hfaulted' hr hf]
      exact rfl

/-- Settles O24, by induction on the number of steps. -/
theorem lessGreaterUnobserved : Obligations.LessGreaterUnobserved := by
  intro k
  induction k with
  | zero => exact fun _ _ h => h
  | succ k ih =>
    intro s t h
    have hstep := step_sameButLG h
    cases hs : step s with
    | next s' =>
      cases ht : step t with
      | next t' =>
        rw [run_succ_next (M := Sys2Proof.core) hs, run_succ_next (M := Sys2Proof.core) ht]
        rw [hs, ht] at hstep
        exact ih s' t' hstep
      | fault | refused => simp [hs, ht, resultsSameButLG] at hstep
    | fault a =>
      cases ht : step t with
      | fault b =>
        rw [run_succ_fault (M := Sys2Proof.core) hs, run_succ_fault (M := Sys2Proof.core) ht]
        rwa [hs, ht] at hstep
      | next | refused => simp [hs, ht, resultsSameButLG] at hstep
    | refused a =>
      cases ht : step t with
      | refused b =>
        rw [run_succ_refused (M := Sys2Proof.core) hs, run_succ_refused (M := Sys2Proof.core) ht]
        rwa [hs, ht] at hstep
      | next | fault => simp [hs, ht, resultsSameButLG] at hstep

end Sys2Proof.Machine

/-! Proofs of the statements about what instructions write and leave alone: memory (20_memory.md R61, R71), and the
frames of the instructions (41_data_movement.md to 44_control.md). -/

namespace Sys2Proof.Machine

variable {i : Instr} {s t : State}

/-! Memory (R61, R71) -/

theorem pushes_iff : i.pushes = true ↔ ∃ r, i = .push r ∨ i = .call r := by
  cases i <;> simp [Instr.pushes]

/-- Settles O25. A fault changes no cell, so the cell was changed by an instruction that completed. -/
theorem onlyPushAndCallStore : Obligations.OnlyPushAndCallStore := by
  intro s t a h hne
  obtain ⟨i, hi, hc⟩ | ⟨c, rfl⟩ := step_cases h
  · obtain ⟨hp, ha⟩ := hc.cell_ne hne
    obtain ⟨r, hr⟩ := pushes_iff.mp hp
    rw [hi]
    exact ⟨⟨r, hr.imp (congrArg _) (congrArg _)⟩, ha⟩
  · exact absurd rfl hne

@[simp] theorem State.sp_pushed (s : State) (r : RegIndex) : (s.pushed r).sp = s.sp - 1#8 := s.sp_setSp _

@[simp] theorem State.sp_called (s : State) (r : RegIndex) : (s.called r).sp = s.sp - 1#8 := s.sp_setSp _

/-- PUSH stores the byte its register holds after the decrement, where the stack pointer then points. -/
theorem Completes.cell_sp_of_push {r : Byte} (hwf : Memory.Wf s.memory) (hc : Completes s (.push r) t)
    (h : r.toNat < 8) : t.cell t.sp.toNat = t.regs[r.toNat] := by
  cases hc
  rw [State.sp_pushed]
  exact Memory.read_write_same hwf _ _

/-- CALL stores the return address, which fits a byte, where the stack pointer then points. -/
theorem Completes.cell_sp_of_call {r : Byte} (hwf : Memory.Wf s.memory) (hc : Completes s (.call r) t) :
    (t.cell t.sp.toNat).toNat = s.pc.toNat + 2 := by
  cases hc with
  | call h hsp hpc =>
    rw [State.sp_called, State.cell_called hwf hsp, if_pos (toNat_sub_one_of_ne_zero hsp), toNat_narrow,
      Nat.mod_eq_of_lt hpc]

/-- Settles O26. A fetch from the stored address, as opcode or operand, is a read of the cell the stack pointer is
left at. -/
theorem fetchSeesStore : Obligations.FetchSeesStore := by
  intro s t i v hwf hrun hv
  have hcell : t.cell t.sp.toNat = v := by
    obtain ⟨r, h, rfl, rfl⟩ | ⟨r, rfl, hv⟩ := hv
    · exact hrun.completes.cell_sp_of_push hwf h
    · exact BitVec.eq_of_toNat_eq ((hrun.completes.cell_sp_of_call hwf).trans hv.symm)
  have hread (sub : BoundsKind) : t.memRead sub t.sp.toNat = .ok v := hcell ▸ memRead_of_lt t sub t.sp.isLt
  exact ⟨fun p hp => (congrArg (t.memRead _) hp).trans (hread _),
    fun p k hp => (congrArg (t.memRead _) hp).trans (hread _)⟩

/-! The frames -/

theorem Completes.cell (h : Completes s i t) (hi : i.pushes = false) (x : Nat) : t.cell x = s.cell x :=
  congrArg (Memory.read · x) (h.memory_of_not_pushes hi)

/-- Settles O46. The three differ in the value they write alone; a fault writes neither register nor memory. -/
theorem registerWriteFrame : Obligations.RegisterWriteFrame := by
  intro i s t d hi e
  obtain hc | ⟨c, rfl⟩ := exec_cases e
  · obtain ⟨x, rfl | rfl | rfl⟩ := hi <;>
      exact ⟨fun q hq => hc.reg hq, hc.flags (by simp), hc.cell rfl, hc.loaded, hc.out (by simp),
        .inl ⟨hc.running (by simp), hc.fault⟩⟩
  · exact ⟨fun _ _ => rfl, rfl, fun _ => rfl, rfl, rfl, .inr ⟨c, rfl⟩⟩

/-- Settles O47. None of the six may write a register, and none pushes. -/
theorem noWriteFrame : Obligations.NoWriteFrame := by
  intro i s t hi e
  obtain hc | ⟨c, rfl⟩ := exec_cases e
  · have hreg (q : RegIndex) : ¬i.writesReg q := by
      obtain ⟨r, b, rfl | rfl | rfl | rfl | rfl | rfl⟩ := hi <;> exact id
    have hpush : i.pushes = false := by
      obtain ⟨r, b, rfl | rfl | rfl | rfl | rfl | rfl⟩ := hi <;> rfl
    exact ⟨fun q => hc.reg (hreg q), hc.cell hpush, hc.loaded, hc.flags, hc.out, .inl ⟨hc.fault, hc.running⟩⟩
  · exact ⟨fun _ => rfl, fun _ => rfl, rfl, fun _ => rfl, fun _ => rfl, .inr ⟨c, rfl⟩⟩

/-- Settles O48. The one cell that can change is the one below the stack pointer, which is where `Dec` points. -/
theorem stackStoreFrame : Obligations.StackStoreFrame := by
  intro i s t r hi e
  obtain hc | ⟨c, rfl⟩ := exec_cases e
  · have hcell (a : Byte) (ha : spDec s.sp = .ok a) (x : Nat) (hx : x ≠ a.toNat) : t.cell x = s.cell x := by
      by_contra hne
      have := toNat_of_spDec_ok ha
      have := (hc.cell_ne hne).2
      omega
    have hdec : ∃ a, spDec s.sp = .ok a := by
      obtain rfl | rfl := hi <;> cases hc
      exacts [⟨_, spDec_of_ne ‹_›⟩, ⟨_, spDec_of_ne ‹_›⟩]
    obtain rfl | rfl := hi <;>
      exact ⟨fun q hq => hc.reg hq, hc.flags (by simp), hc.loaded, hc.out (by simp), hcell,
        .inl ⟨hc.running (by simp), hc.fault, hdec⟩⟩
  · exact ⟨fun _ _ => rfl, rfl, rfl, rfl, fun _ _ _ _ => rfl, .inr ⟨c, rfl⟩⟩

/-- Settles O49. Neither pushes, so the cell that is read keeps its byte. -/
theorem stackLoadFrame : Obligations.StackLoadFrame := by
  intro i s t hi e
  obtain hc | ⟨c, rfl⟩ := exec_cases e
  · obtain ⟨r, rfl⟩ | rfl := hi
    · exact ⟨fun q h7 hr => hc.reg (not_or.mpr ⟨h7, hr r rfl⟩), hc.flags (by simp), hc.cell rfl, hc.loaded,
        hc.out (by simp), .inl ⟨hc.running (by simp), hc.fault⟩⟩
    · exact ⟨fun q h7 _ => hc.reg h7, hc.flags (by simp), hc.cell rfl, hc.loaded, hc.out (by simp),
        .inl ⟨hc.running (by simp), hc.fault⟩⟩
  · exact ⟨fun _ _ _ => rfl, rfl, fun _ => rfl, rfl, rfl, .inr ⟨c, rfl⟩⟩

end Sys2Proof.Machine

/-! Proofs of the statements about CMP (42_arithmetic.md R155) and the ALU's interface (R151). -/

namespace Sys2Proof.Machine

variable {a b : Byte} {s : State}

/-! CMP (R155) -/

theorem exec_cmp_of_lt (ha : a.toNat < 8) (hb : b.toNat < 8) :
    exec (.cmp a b) s = .next ((s.setFlags (compareFlags s.regs[a.toNat] s.regs[b.toNat])).selectPc (.seq 3)) :=
  commit_regPair_bind_of_lt ha hb _

theorem exec_cmp_of_ge_left (ha : 8 ≤ a.toNat) :
    exec (.cmp a b) s = .next (s.faulted (.outOfBounds .registerIndex a.toNat)) :=
  commit_regPair_bind_of_ge_left ha _

theorem exec_cmp_of_ge_right (ha : a.toNat < 8) (hb : 8 ≤ b.toNat) :
    exec (.cmp a b) s = .next (s.faulted (.outOfBounds .registerIndex b.toNat)) :=
  commit_regPair_bind_of_ge_right ha hb _

/-- Settles O35. The flags are the three comparisons themselves, of which exactly one holds. -/
theorem cmpSetsFlags : Obligations.CmpSetsFlags :=
  fun _ _ _ => ⟨rfl, fun ha hb => ⟨_, exec_cmp_of_lt ha hb, decide_eq_true_iff.trans BitVec.toNat_inj,
    decide_eq_true_iff, decide_eq_true_iff, compareFlags_exactlyOne _ _⟩, exec_cmp_of_ge_left, exec_cmp_of_ge_right,
    step_two_operands_past_end (o := .cmp) rfl⟩

/-! The ALU (R151) -/

/-- Settles O44. The value written is the narrowed sum; any other tag is a fault of the transaction. -/
theorem aluAddsOrReports : Obligations.AluAddsOrReports :=
  fun _ _ s _ => ⟨⟨_, toNat_narrow _, rfl, rfl⟩, rfl, rfl, s.hostStatus_faulted _⟩

end Sys2Proof.Machine

/-! Proofs of the statements about the stack discipline (43_stack.md R174, 44_control.md R196, 90_conflicts.md C5). -/

namespace Sys2Proof.Machine

variable {i : Instr} {s t u v : State}

/-! One instruction -/

/-- An instruction that pushes has passed the check of `Dec`. -/
theorem Completes.sp_of_pushes (h : Completes s i t) (hi : i.pushes = true) : s.sp ≠ 0#8 ∧ t.sp = s.sp - 1#8 := by
  cases h with
  | push _ hsp => exact ⟨hsp, s.sp_pushed _⟩
  | call _ hsp => exact ⟨hsp, s.sp_called _⟩
  | _ => cases hi

/-- An instruction that pops has passed the check of `Inc`; POP R7 is none of them. -/
theorem Completes.sp_of_pops (h : Completes s i t) (hi : i.pops = true) : s.sp ≠ 255#8 ∧ t.sp = s.sp + 1#8 := by
  cases h with
  | ret hsp | pop _ _ hsp => exact ⟨hsp, State.sp_setSp _ _⟩
  | popSp h7 => exact absurd (BitVec.eq_of_toNat_eq h7) (bne_iff_ne.mp hi)
  | _ => cases hi

/-- Settles O50. An instruction that completes has passed the check of `Dec` or `Inc`, so it does not wrap. -/
theorem stackPointerMovesByOne : Obligations.StackPointerMovesByOne := by
  intro s t i h
  constructor
  · intro hi
    obtain ⟨hsp, ht⟩ := h.completes.sp_of_pushes hi
    exact ht ▸ toNat_of_spDec_ok (spDec_of_ne hsp)
  · intro hi
    obtain ⟨hsp, ht⟩ := h.completes.sp_of_pops hi
    exact ht ▸ toNat_of_spInc_ok (spInc_of_ne hsp)

theorem not_writesReg_seven (hi : i.leavesStack = true) : ¬i.writesReg 7 := by
  have hdest {r : Byte} (hr : (r != 7#8) = true) : 7 ≠ r.toNat :=
    fun h => bne_iff_ne.mp hr (BitVec.eq_of_toNat_eq h.symm)
  cases i with
  | hlt | push | pop | call | ret => cases hi
  | ldi | mul | add => exact hdest hi
  | prn | cmp | jmp | jne | jeq => exact id

theorem pushes_eq_false_of_leavesStack (hi : i.leavesStack = true) : i.pushes = false := by
  cases i with
  | push | call => cases hi
  | _ => rfl

theorem pushes_eq_false_of_pops (hi : i.pops = true) : i.pushes = false := by
  cases i with
  | push | call => cases hi
  | _ => rfl

/-! Balanced runs -/

/-- `t` has the stack pointer of `s`, and every cell at or above it as `s` has it. -/
def StackKept (s t : State) : Prop := t.sp = s.sp ∧ ∀ a, s.sp.toNat ≤ a → t.cell a = s.cell a

theorem StackKept.trans (h : StackKept s t) (h' : StackKept t u) : StackKept s u := by
  obtain ⟨hsp, hcell⟩ := h
  obtain ⟨hsp', hcell'⟩ := h'
  exact ⟨hsp'.trans hsp, fun a ha => (hcell' a (hsp ▸ ha)).trans (hcell a ha)⟩

theorem stackKept_of_leavesStack (h : s.runs i t) (hi : i.leavesStack = true) : StackKept s t :=
  ⟨h.completes.reg (not_writesReg_seven hi), fun a _ => h.completes.cell (pushes_eq_false_of_leavesStack hi) a⟩

/-- What the push stores lies below the stack pointer it started from, and the pop adds back the 1 the push took away.
-/
theorem stackKept_of_nested {j : Instr} (h : s.runs i t) (hi : i.pushes = true) (hbetween : StackKept t u)
    (h' : u.runs j v) (hj : j.pops = true) : StackKept s v := by
  obtain ⟨hsp, hcell⟩ := hbetween
  have hdown := (stackPointerMovesByOne s t i h).1 hi
  have hup := (stackPointerMovesByOne u v j h').2 hj
  rw [hsp] at hup
  refine ⟨BitVec.eq_of_toNat_eq (by omega), fun a ha => ?_⟩
  calc v.cell a
    _ = u.cell a := h'.completes.cell (pushes_eq_false_of_pops hj) a
    _ = t.cell a := hcell a (by omega)
    _ = s.cell a := by
      by_contra hne
      have := (h.completes.cell_ne hne).2
      omega

/-- Settles O51, by induction on the run. -/
theorem balancedRunKeepsStack : Obligations.BalancedRunKeepsStack := by
  intro s t h
  show StackKept s t
  induction h with
  | done s => exact ⟨rfl, fun _ _ => rfl⟩
  | plain h hi _ ih => exact (stackKept_of_leavesStack h hi).trans ih
  | nested h hi _ h' hj _ ih ih' => exact (stackKept_of_nested h hi ih h' hj).trans ih'

/-- POP and RET read the cell that the push before the balanced run stored to, and nothing has changed it since. -/
theorem cell_sp_of_balancedRun (h : BalancedRun t u) : u.cell u.sp.toNat = t.cell t.sp.toNat := by
  obtain ⟨hsp, hcell⟩ := balancedRunKeepsStack t u h
  rw [hsp, hcell _ le_rfl]

theorem Completes.reg_of_pop {r : Byte} (hc : Completes s (.pop r) t) (h : r.toNat < 8) (h7 : r.toNat ≠ 7) :
    t.regs[r.toNat] = s.cell s.sp.toNat := by
  cases hc with
  | pop =>
    have hne : (7 : RegIndex) ≠ ⟨r.toNat, h⟩ := fun e => h7 (congrArg Fin.val e).symm
    exact (State.reg_setReg_ne _ _ hne).trans (s.reg_setReg_same _ _)
  | popSp hr => exact absurd hr h7

/-- PUSH of a register other than R7 leaves the register as it was. -/
theorem Completes.reg_of_push {r x : Byte} (hc : Completes s (.push r) t) (h : x.toNat < 8) (h7 : x.toNat ≠ 7) :
    t.regs[x.toNat] = s.regs[x.toNat] :=
  hc.reg (q := ⟨x.toNat, h⟩) fun e => h7 (congrArg Fin.val e)

/-- Settles O52. POP reads the cell PUSH stored to, which the balanced run between them has kept. -/
theorem pushThenPop : Obligations.PushThenPop := by
  intro s t u v x y hx hy hwf hpush hbal hpop hy7
  have hval : v.regs[y.toNat] = t.regs[x.toNat] :=
    calc v.regs[y.toNat]
      _ = u.cell u.sp.toNat := hpop.completes.reg_of_pop hy hy7
      _ = t.cell t.sp.toNat := cell_sp_of_balancedRun hbal
      _ = t.regs[x.toNat] := hpush.completes.cell_sp_of_push hwf hx
  have hpops : (Instr.pop y).pops = true := bne_iff_ne.mpr fun e => hy7 (congrArg BitVec.toNat e)
  exact ⟨hval, fun hx7 => hval.trans (hpush.completes.reg_of_push hx hx7),
    (stackKept_of_nested hpush rfl (balancedRunKeepsStack t u hbal) hpop hpops).1⟩

theorem Completes.toNat_pc_of_ret (hc : Completes s .ret t) : t.pc.toNat = (s.cell s.sp.toNat).toNat := by
  cases hc
  exact State.toNat_pc_selectPc_target _ _

/-- Settles O53. RET reads the cell CALL stored the return address in, which the balanced run between them has kept. -/
theorem callThenRet : Obligations.CallThenRet := by
  intro s t u v r hwf hcall hbal hret
  have hpc : v.pc.toNat = s.pc.toNat + 2 :=
    calc v.pc.toNat
      _ = (u.cell u.sp.toNat).toNat := hret.completes.toNat_pc_of_ret
      _ = (t.cell t.sp.toNat).toNat := by rw [cell_sp_of_balancedRun hbal]
      _ = s.pc.toNat + 2 := hcall.completes.cell_sp_of_call hwf
  exact ⟨hpc, (stackKept_of_nested hcall rfl (balancedRunKeepsStack t u hbal) hret rfl).1⟩

end Sys2Proof.Machine

/-! Proof of the statement about the state in which a run starts (70_reset_and_hazards.md R254). -/

namespace Sys2Proof.Machine

/-- Settles O9. The load finds the memory of the reset, and the start finds the engine Halted and loaded. -/
theorem firstStepState : Obligations.FirstStepState := by
  intro s words hw
  obtain ⟨hloads, -⟩ := loadPlacesProgram
  obtain ⟨hfits, -, -⟩ := hloads s.hostReset words State.reset_memory_wf
  obtain ⟨t, hload, ht, hin, hout⟩ := hfits rfl hw
  have hmay : t.mayStart = true := by rw [ht]; rfl
  refine ⟨{ t with running := true }, ?_, congrArg (fun t : State => { t with running := true }) ht, hin,
    fun a ha => (hout a ha).trans (Memory.read_nil a)⟩
  rw [hload]
  exact State.hostStart_of_mayStart hmay

end Sys2Proof.Machine

/-! Proof of the statement about the assembly text (30_encoding.md R98): the canonical text of an instruction splits
into its mnemonic and the texts of its operands, and each of these parses back. -/

namespace Sys2Proof.Machine

/-! Decimal numerals -/

theorem digitValue_digitChar : ∀ d < 10, digitValue (Nat.digitChar d) = some d := by decide

theorem digitsFrom_append (base acc : Nat) (ds es : List Char) :
    digitsFrom base acc (ds ++ es) = (digitsFrom base acc ds).bind fun n => digitsFrom base n es := by
  induction ds generalizing acc with
  | nil => rfl
  | cons c ds ih =>
    simp only [List.cons_append, digitsFrom]
    cases digitValue c with
    | none => rfl
    | some d =>
      by_cases hd : d < base
      · simp only [if_pos hd, ih]
      · simp only [if_neg hd, Option.bind_none]

/-- Reading the decimal digits of a number gives the number, whatever its size. -/
theorem digitsFrom_toDigits (n : Nat) : digitsFrom 10 0 (Nat.toDigits 10 n) = some n := by
  induction n using Nat.strongRecOn with
  | ind n ih =>
    have hlast (acc d : Nat) (hd : d < 10) : digitsFrom 10 acc [Nat.digitChar d] = some (acc * 10 + d) := by
      simp [digitsFrom, digitValue_digitChar d hd, hd]
    rcases Nat.lt_or_ge n 10 with hn | hn
    · rw [Nat.toDigits_of_lt_base hn, hlast 0 n hn, Nat.zero_mul, Nat.zero_add]
    · rw [Nat.toDigits_of_base_le (by decide) hn, digitsFrom_append, ih (n / 10) (by omega), Option.bind_some,
        hlast _ _ (Nat.mod_lt n (by decide)), Nat.div_add_mod']

theorem toDigits_ne_nil (n : Nat) : Nat.toDigits 10 n ≠ [] := by
  rw [Nat.toDigits_eq_if (by decide)]
  split <;> simp

/-- A non-empty text that reads as a byte's value is a literal of that byte. -/
theorem byteLiteral_decimal (b : Byte) : byteLiteral 10 (decimal b) = some b := by
  have hdigits := digitsFrom_toDigits b.toNat
  unfold byteLiteral decimal
  split
  · next h => exact absurd h (toDigits_ne_nil _)
  · rw [hdigits, Option.bind_some, if_pos b.isLt, BitVec.ofNat_toNat, BitVec.setWidth_eq]

theorem isDigit_of_mem_decimal {b : Byte} {c : Char} (hc : c ∈ decimal b) : c.isDigit = true :=
  Nat.isDigit_of_mem_toDigits (by decide) (by decide) hc

/-- A numeral has no letter, so it takes neither the `0x` nor the `0b` form of an immediate. -/
theorem parseImmediate_decimal (b : Byte) : parseImmediate (decimal b) = some b := by
  have hletter {c : Char} (hc : c.isDigit = false) : c ∉ decimal b := fun hmem => by
    simp [isDigit_of_mem_decimal hmem] at hc
  unfold parseImmediate
  split
  · next ds h => exact absurd (by simp [h]) (hletter (c := 'x') rfl)
  · next ds h => exact absurd (by simp [h]) (hletter (c := 'b') rfl)
  · exact byteLiteral_decimal b

theorem decimal_of_lt {r : Byte} (h : r.toNat < 8) : decimal r = [Nat.digitChar r.toNat] :=
  Nat.toDigits_of_lt_base (by omega)

theorem parseRegister_R (d : Char) :
    parseRegister ['R', d] = (byteLiteral 10 [d]).bind fun b => if b.toNat < 8 then some b else none := rfl

theorem parseRegister_registerText {r : Byte} (h : r.toNat < 8) : parseRegister (registerText r) = some r := by
  have hlit := byteLiteral_decimal r
  rw [decimal_of_lt h] at hlit
  rw [registerText, decimal_of_lt h, parseRegister_R, hlit, Option.bind_some, if_pos h]

/-! Tokens -/

/-- A text that `tokensFrom` takes as one token: it is not empty, and no character of it separates. -/
def IsToken (w : List Char) : Prop := w ≠ [] ∧ ∀ c ∈ w, ¬(c = ' ' ∨ c = ',')

theorem isToken_mnemonicText (o : Opcode) : IsToken (mnemonicText o) := by
  cases o <;> simp [IsToken, mnemonicText]

theorem not_separator_of_mem_decimal {b : Byte} {c : Char} (hc : c ∈ decimal b) : ¬(c = ' ' ∨ c = ',') := by
  rintro (rfl | rfl) <;> exact absurd (isDigit_of_mem_decimal hc) (by decide)

theorem isToken_decimal (b : Byte) : IsToken (decimal b) :=
  ⟨toDigits_ne_nil b.toNat, fun _ hc => not_separator_of_mem_decimal hc⟩

theorem isToken_registerText (r : Byte) : IsToken (registerText r) := by
  refine ⟨List.cons_ne_nil _ _, fun c hc => ?_⟩
  obtain rfl | hc := List.mem_cons.mp hc
  · decide
  · exact not_separator_of_mem_decimal hc

/-- Characters that do not separate are read into the current token. -/
theorem tokensFrom_append {w : List Char} (hw : ∀ c ∈ w, ¬(c = ' ' ∨ c = ',')) (cur rest : List Char) :
    tokensFrom cur (w ++ rest) = tokensFrom (w.reverse ++ cur) rest := by
  induction w generalizing cur with
  | nil => rfl
  | cons c w ih =>
    obtain ⟨hc, hw⟩ := List.forall_mem_cons.mp hw
    rw [List.cons_append, tokensFrom, if_neg hc, ih hw, List.reverse_cons, List.append_assoc, List.singleton_append]

theorem tokensFrom_token {w : List Char} (hw : IsToken w) : tokensFrom [] w = [w] := by
  obtain ⟨hne, hsep⟩ := hw
  have := tokensFrom_append hsep [] []
  rw [List.append_nil] at this
  rw [this]
  simp [tokensFrom, hne]

theorem tokensFrom_token_separator {w : List Char} (hw : IsToken w) {c : Char} (hc : c = ' ' ∨ c = ',')
    (rest : List Char) : tokensFrom [] (w ++ c :: rest) = w :: tokensFrom [] rest := by
  obtain ⟨hne, hsep⟩ := hw
  rw [tokensFrom_append hsep, List.append_nil, tokensFrom, if_pos hc]
  simp [hne]

theorem tokensFrom_textR (o : Opcode) (r : Byte) : tokensFrom [] (textR o r) = [mnemonicText o, registerText r] := by
  rw [textR, tokensFrom_token_separator (isToken_mnemonicText o) (.inl rfl), tokensFrom_token (isToken_registerText r)]

theorem tokensFrom_textR_comma (o : Opcode) (r : Byte) {w : List Char} (hw : IsToken w) :
    tokensFrom [] (textR o r ++ ',' :: ' ' :: w) = [mnemonicText o, registerText r, w] := by
  have hspace : tokensFrom [] (' ' :: w) = tokensFrom [] w := rfl
  rw [textR, List.append_assoc, List.cons_append, tokensFrom_token_separator (isToken_mnemonicText o) (.inl rfl),
    tokensFrom_token_separator (isToken_registerText r) (.inr rfl), hspace, tokensFrom_token hw]

/-! Lines -/

/-- No two tags share a mnemonic. -/
theorem find?_mnemonicText (o : Opcode) : (allOpcodes.find? fun q => mnemonicText q == mnemonicText o) = some o := by
  cases o <;> decide

/-- A line whose tokens are a mnemonic and the texts of operands assembles to the encoding with these operands. -/
theorem assembleLine_of_tokens {t : List Char} {o : Opcode} {ts : List (List Char)} {b1 b2 : Byte}
    (ht : tokensFrom [] t = mnemonicText o :: ts) (hops : parseOperands o.format ts = some (b1, b2)) :
    assembleLine t = some (encode (o.assemble b1 b2)) := by
  simp [assembleLine, parseAssembly, ht, find?_mnemonicText, hops]

theorem assembleLine_mnemonicText {o : Opcode} (ho : o.format = .n) :
    assembleLine (mnemonicText o) = some (encode (o.assemble 0#8 0#8)) :=
  assembleLine_of_tokens (tokensFrom_token (isToken_mnemonicText o)) (by rw [ho]; rfl)

theorem assembleLine_textR {o : Opcode} (ho : o.format = .r) {r : Byte} (hr : isRegByte r = true) :
    assembleLine (textR o r) = some (encode (o.assemble r 0#8)) := by
  refine assembleLine_of_tokens (tokensFrom_textR o r) ?_
  rw [ho, parseOperands, parseRegister_registerText (of_decide_eq_true hr), Option.map_some]

theorem assembleLine_textRR {o : Opcode} (ho : o.format = .rr) {a b : Byte}
    (h : (isRegByte a && isRegByte b) = true) : assembleLine (textRR o a b) = some (encode (o.assemble a b)) := by
  obtain ⟨ha, hb⟩ := Bool.and_eq_true_iff.mp h
  refine assembleLine_of_tokens (tokensFrom_textR_comma o a (isToken_registerText b)) ?_
  rw [ho, parseOperands, parseRegister_registerText (of_decide_eq_true ha),
    parseRegister_registerText (of_decide_eq_true hb), Option.bind_some, Option.map_some]

theorem assembleLine_ldi {r : Byte} (hr : isRegByte r = true) (imm : Byte) :
    assembleLine (assemblyText (.ldi r imm)) = some (encode (.ldi r imm)) := by
  refine assembleLine_of_tokens (o := .ldi) (tokensFrom_textR_comma .ldi r (isToken_decimal imm)) ?_
  rw [Opcode.format, parseOperands, parseRegister_registerText (of_decide_eq_true hr), parseImmediate_decimal,
    Option.bind_some, Option.map_some]

/-- Settles O56, by the four formats. -/
theorem canonicalTextAssembles : Obligations.CanonicalTextAssembles := by
  intro i h
  cases i with
  | hlt => exact assembleLine_mnemonicText (o := .hlt) rfl
  | ret => exact assembleLine_mnemonicText (o := .ret) rfl
  | ldi r imm => exact assembleLine_ldi h imm
  | prn => exact assembleLine_textR (o := .prn) rfl h
  | push => exact assembleLine_textR (o := .push) rfl h
  | pop => exact assembleLine_textR (o := .pop) rfl h
  | call => exact assembleLine_textR (o := .call) rfl h
  | jmp => exact assembleLine_textR (o := .jmp) rfl h
  | jne => exact assembleLine_textR (o := .jne) rfl h
  | jeq => exact assembleLine_textR (o := .jeq) rfl h
  | mul => exact assembleLine_textRR (o := .mul) rfl h
  | add => exact assembleLine_textRR (o := .add) rfl h
  | cmp => exact assembleLine_textRR (o := .cmp) rfl h

end Sys2Proof.Machine
